-- ==== Sys2Proof/Config.lean ====
section
/-! DEFINITION. The parameters the spec fixes (R6, R7), the ones it leaves to the platform
(U9, U10), and the free value of the working gray array (U7). R42: none of these is state. -/

namespace Sys2Proof.Config

/-- `FW`: framebuffer width in pixels (R6). -/
def fw : Nat := 128

/-- `FH`: framebuffer height in pixels (R6). -/
def fh : Nat := 64

/-- `NCH`: channels of a pixel, in the order R, G, B, A (R6). -/
def nch : Nat := 4

/-- `CHW`: bits of a channel (R6). -/
abbrev chw : Nat := 8

/-- `LSCALE`: centi-levels in one gray level (R7). -/
def lscale : Int := 100

/-- `WR`, `WG`, `WB`: the luminance weights 0.30, 0.59, 0.11 in hundredths (R6, R7). -/
def lumaR : Nat := 30
def lumaG : Nat := 59
def lumaB : Nat := 11

/-- `THRESH`: quantisation threshold in gray levels (R6). -/
def thresh : Int := 127

/-- `THRESH_C`: the threshold in centi-levels, 12700 (R7). -/
def threshC : Int := thresh * lscale

/-- `V_LO`, `V_HI`: the two output levels (R6). -/
def vLo : BitVec chw := 0
def vHi : BitVec chw := 255

/-- The black level in centi-levels, 0 (R112). -/
def vLoC : Int := vLo.toNat * lscale

/-- `V_HI_C`: the white level in centi-levels, 25500 (R7). -/
def vHiC : Int := vHi.toNat * lscale

/-- `K_E`, `K_SW`, `K_S`, `K_SE` over `K_DEN`: the diffusion kernel (R6). -/
def kE : Int := 7
def kSW : Int := 3
def kS : Int := 5
def kSE : Int := 1
def kDen : Int := 16

/-- `FB_BASE`: host address of the frame-memory aperture (R7). -/
def fbBase : Nat := 0x8000

/-- `FB_BYTES`: bytes of frame memory (R7, R36). -/
def fbBytes : Nat := fw * fh * nch

/-- `ID_VALUE`: what the ID register reads as, "DITH" (R7, R23). -/
def idValue : BitVec 32 := 0x44495448

/-- What the GEOM register reads as: FH above FW (R24). -/
def geomValue : BitVec 32 := (BitVec.ofNat 16 fh ++ BitVec.ofNat 16 fw).setWidth 32

/-- `DE_BASE`: where a platform places the block's 64 KiB window (R60, D2, U9). Open: no value
(DESIGN CHOICE, log entry 10). -/
opaque deBase : Nat

/-- `DE_IRQ_LINE`: where a platform routes `irq` (R214, D15, U10). Open: no value
(DESIGN CHOICE, log entry 10). -/
opaque deIrqLine : Nat

/-- FREE VALUE (DESIGN CHOICE, log entry 3). What a cell of `GW` holds that no luminance step has written (R37, U7:
any value), by the cell's key. No reachable step reads it. -/
opaque freeGray : Nat → BitVec 18

end Sys2Proof.Config
end

