-- ==== Sys2Proof/Word.lean ====
section
/-! DEFINITION. The bit-vector types of the block and the pair a host puts on its port. -/

namespace Sys2Proof

/-- One channel of a pixel, `CHW = 8` bits (R6), and one cell of frame memory (R36). -/
abbrev Byte := BitVec Config.chw

/-- Host data, `DATAW = 32` bits (R7). -/
abbrev Word := BitVec 32

/-- Host byte address, `ADDRW = 16` bits (R7, R60). -/
abbrev Addr := BitVec 16

/-- Transaction descriptor (R91): bit 18 `WR`, bits 17:16 `SIZE`, bits 15:0 `ADDR`. -/
abbrev TD := BitVec 19

/-- Frame-memory offset `ADDR[14:0]` (R96). -/
abbrev FbOff := BitVec 15

/-- Working gray value: two's complement, `GWW = 18` bits (R7, R37). -/
abbrev Gray := BitVec 18

/-- One host transaction, the pair `(TD, wdata)` of R91; a read ignores `wdata`. -/
structure Txn where
  td    : TD
  wdata : Word
  deriving DecidableEq, Repr

end Sys2Proof
end

