-- ==== Sys2Proof/Machine/State.lean ====
section
/-! DEFINITION. Everything the spec gives the block as state (10_state.md), the level of its reset pin,
its last bus response, and what the outside world still has to do to it. Plain data throughout.
`ID`, `GEOM` and `CTRL` hold no state (R23, R24, R25, R42); `irq` is a function of state (R41). -/

namespace Sys2Proof.Machine

/-- Why the machine stops. R253 with U5: the only faults of a model of this block. A fault ends
a run (DEDUCED, log entry 12). -/
inductive Fault where
  /-- Raised by RD8_FB, RD16_FB and RD32_FB, with BUSY = 0, on a byte not written since reset
  (R190, R249, U5). Safe: the hardware goes on with a value no claim may rest on. -/
  | unwrittenHostRead
  /-- Raised by `LUMA_STEP` on an R, G or B byte not written since reset (R249, U5). Safe, as above. -/
  | unwrittenLumaRead
  deriving DecidableEq, Repr

/-- Why an instruction has no meaning in the model. -/
inductive Refusal where
  /-- Raised by an arm of `exec` whose instruction is not modelled; no arm does so. Safe. -/
  | notModelled (mnemonic : String)
  deriving DecidableEq, Repr

/-- `PHASE` (R38). -/
inductive Phase where
  | idle | luma | diffuse
  deriving DecidableEq, Repr

/-- The five fields of `STATUS` (R26 to R31); its other bits are RAZ/WI (R35). -/
structure Status where
  busy   : Bool
  done   : Bool
  cfgErr : Bool
  ovrErr : Bool
  accErr : Bool
  deriving DecidableEq, Repr

/-- The four fields of `IRQ_EN` (R32); its other bits are RAZ/WI (R35). -/
structure IrqEn where
  doneIe   : Bool
  cfgErrIe : Bool
  ovrErrIe : Bool
  accErrIe : Bool
  deriving DecidableEq, Repr

/-- The fields of `WIN_ORG` (R33). -/
structure WinOrg where
  x0 : BitVec 7
  y0 : BitVec 6
  deriving DecidableEq, Repr

/-- The fields of `WIN_SIZE` (R34). -/
structure WinSize where
  w : BitVec 8
  h : BitVec 7
  deriving DecidableEq, Repr

/-- The latched window `(AX0, AY0, AW, AH)` (R40). -/
structure Latch where
  ax0 : BitVec 7
  ay0 : BitVec 6
  aw  : BitVec 8
  ah  : BitVec 7
  deriving DecidableEq, Repr

/-- A host transaction's response: the ports `err` and `rdata` with `ack` (R90). -/
structure Response where
  err   : Bool
  rdata : Word
  deriving DecidableEq, Repr

/-- Whose step comes next (R14, R69), or a move of the reset pin (R240). -/
inductive Turn where
  /-- The host's transaction at the head of its queue is performed. -/
  | host
  /-- The engine takes the step it has enabled. -/
  | engine
  /-- `rst_n` goes to 0. -/
  | assertReset
  /-- `rst_n` goes to 1. -/
  | releaseReset
  deriving DecidableEq, Repr

/-- Frame memory: the bytes written since reset, by frame-memory offset, offsets strictly rising.
An offset with no entry holds no defined value (R241; DESIGN CHOICE, log entry 4). -/
abbrev Memory := List Host.Cell

/-- The working gray array: the cells written so far, by key, keys strictly rising
(DESIGN CHOICE, log entry 9). -/
abbrev GrayArray := List (Nat × Gray)

structure State where
  /-- `STATUS` (R26). -/
  status : Status
  /-- `IRQ_EN` (R32). -/
  irqEn : IrqEn
  /-- `WIN_ORG` (R33). -/
  winOrg : WinOrg
  /-- `WIN_SIZE` (R34). -/
  winSize : WinSize
  /-- `FB` (R36). -/
  fb : Memory
  /-- `GW` (R37). -/
  gw : GrayArray
  /-- `PHASE` (R38). -/
  phase : Phase
  /-- `CX`, 0 to 128 (R39). -/
  cx : Nat
  /-- `CY`, 0 to 64 (R39). -/
  cy : Nat
  /-- `(AX0, AY0, AW, AH)` (R40). -/
  latch : Latch
  /-- The response of the last transaction performed since reset (R90; DEDUCED, log entry 5). -/
  response : Option Response
  /-- The level of `rst_n` (R90, R240). -/
  rstN : Bool
  /-- The transactions the host has still to issue, in its issue order (R63; DESIGN CHOICE, log
  entries 2 and 16). -/
  hostQueue : List Txn
  /-- The interleaving still to come (R69; DESIGN CHOICE, log entries 1 and 16). -/
  turns : List Turn
  deriving DecidableEq, Repr

/-- The state after reset (R241). No transaction is waiting and no turn is laid down. -/
def State.reset : State where
  status := ⟨false, false, false, false, false⟩
  irqEn := ⟨false, false, false, false⟩
  winOrg := ⟨0, 0⟩
  winSize := ⟨128, 64⟩
  fb := []
  gw := []
  phase := .idle
  cx := 0
  cy := 0
  latch := ⟨0, 0, 0, 0⟩
  response := none
  rstN := true
  hostQueue := []
  turns := []

end Sys2Proof.Machine
end

