-- ==== Sys2Proof/Machine/Flags.lean ====
section
/-! DEFINITION. The `STATUS` bits: how they are read, set and cleared (R26 to R31, R157, R158), the
interrupt output (R41, R214), and the window tests that decide a START (R127, R128). -/

namespace Sys2Proof.Machine

/-- The four sticky causes of R210, each a bit of `STATUS` and an enable of `IRQ_EN`. -/
inductive Cause where
  | doneBit | cfgErr | ovrErr | accErr
  deriving DecidableEq, Repr

/-- The bit position of a cause in `STATUS` and in `IRQ_EN` (R22, R210). -/
def Cause.bit : Cause → Nat
  | .doneBit => 1
  | .cfgErr => 2
  | .ovrErr => 3
  | .accErr => 4

/-- What `RD_STATUS` returns: `{27'b0, ACC_ERR, OVR_ERR, CFG_ERR, DONE, BUSY}` (R157). -/
def Status.word (s : Status) : Word :=
  (BitVec.ofBool s.accErr ++ BitVec.ofBool s.ovrErr ++ BitVec.ofBool s.cfgErr ++
    BitVec.ofBool s.done ++ BitVec.ofBool s.busy).setWidth 32

/-- A cause's event sets its bit, which stays 1 if it was 1 (R28 to R31, R220). -/
def Status.raise (c : Cause) (s : Status) : Status :=
  match c with
  | .doneBit => { s with done := true }
  | .cfgErr => { s with cfgErr := true }
  | .ovrErr => { s with ovrErr := true }
  | .accErr => { s with accErr := true }

/-- `for k in 1..4: if wdata[k] = 1 then STATUS[k] <- 0` (R158). BUSY is not cleared. -/
def Status.clear (d : Word) (s : Status) : Status :=
  { busy := s.busy
    done := s.done && !d.getLsbD Cause.doneBit.bit
    cfgErr := s.cfgErr && !d.getLsbD Cause.cfgErr.bit
    ovrErr := s.ovrErr && !d.getLsbD Cause.ovrErr.bit
    accErr := s.accErr && !d.getLsbD Cause.accErr.bit }

/-- The interrupt output of R41, from the status and enable fields. -/
def irqOf (s : Status) (e : IrqEn) : Bool :=
  (s.done && e.doneIe) || (s.cfgErr && e.cfgErrIe) || (s.ovrErr && e.ovrErrIe) ||
    (s.accErr && e.accErrIe)

/-- The level of the port `irq` (R41, R90). -/
def State.irq (s : State) : Bool := irqOf s.status s.irqEn

/-- `WinValid(X0, Y0, W, H)` (R127). -/
def winValid (o : WinOrg) (z : WinSize) : Bool :=
  decide (o.x0.toNat + z.w.toNat ≤ Config.fw) && decide (o.y0.toNat + z.h.toNat ≤ Config.fh)

/-- `W = 0` or `H = 0` (R128). -/
def winEmpty (z : WinSize) : Bool := z.w == 0 || z.h == 0

end Sys2Proof.Machine
end

