-- ==== Sys2Proof/Machine/Operands.lean ====
section
/-! DEFINITION. How register fields are taken from `wdata` (R94) and assembled into read data (R95), how a
frame offset names a pixel and channel (R61, R96), and how a byte sits in a word (R62). -/

namespace Sys2Proof.Machine

/-- `START = wdata[0]` (R94, R156). -/
def startBit (d : Word) : Bool := d.getLsbD 0

/-- `IRQ_EN[4:1] <- wdata[4:1]` (R94, R160). -/
def IrqEn.ofWord (d : Word) : IrqEn :=
  ⟨d.getLsbD 1, d.getLsbD 2, d.getLsbD 3, d.getLsbD 4⟩

/-- `{27'b0, ACC_ERR_IE, OVR_ERR_IE, CFG_ERR_IE, DONE_IE, 1'b0}` (R159). -/
def IrqEn.word (e : IrqEn) : Word :=
  (BitVec.ofBool e.accErrIe ++ BitVec.ofBool e.ovrErrIe ++ BitVec.ofBool e.cfgErrIe ++
    BitVec.ofBool e.doneIe ++ 0#1).setWidth 32

/-- `X0 <- wdata[6:0]; Y0 <- wdata[21:16]` (R94, R162). -/
def WinOrg.ofWord (d : Word) : WinOrg := ⟨d.extractLsb' 0 7, d.extractLsb' 16 6⟩

/-- `{10'b0, Y0[5:0], 9'b0, X0[6:0]}` (R95, R161). -/
def WinOrg.word (o : WinOrg) : Word := (o.y0 ++ 0#9 ++ o.x0).setWidth 32

/-- `W <- wdata[7:0]; H <- wdata[22:16]` (R94, R164). -/
def WinSize.ofWord (d : Word) : WinSize := ⟨d.extractLsb' 0 8, d.extractLsb' 16 7⟩

/-- `{9'b0, H[6:0], 8'b0, W[7:0]}` (R95, R163). -/
def WinSize.word (z : WinSize) : Word := (z.h ++ 0#8 ++ z.w).setWidth 32

/-- The frame-memory offset of a pixel's R byte: `4*(y*FW + x)` (R61). -/
def pixelOffset (x y : Nat) : Nat := Config.nch * (y * Config.fw + x)

/-- `x = off[8:2]` (R96). -/
def offX (off : FbOff) : BitVec 7 := off.extractLsb' 2 7

/-- `y = off[14:9]` (R96). -/
def offY (off : FbOff) : BitVec 6 := off.extractLsb' 9 6

/-- `c = off[1:0]`, 0 = R, 1 = G, 2 = B, 3 = A (R96). -/
def offChannel (off : FbOff) : BitVec 2 := off.extractLsb' 0 2

/-- The byte at the lowest address of a little-endian datum (R62). -/
def lowByte (v : Word) : Byte := v.setWidth Config.chw

/-- A little-endian datum from its lowest byte and the bytes above it (R62). -/
def joinByte (b : Byte) (above : Word) : Word := above <<< Config.chw ||| b.setWidth 32

end Sys2Proof.Machine
end

