-- ==== Sys2Proof/Machine/Ops.lean ====
section
/-! DEFINITION. The shared operations: the sorted cell list behind frame memory and `GW`, `MemRead` and
`MemWrite` (R11, R62), the bus responses and `raise BusError` (R11), the interlocked frame access that
every frame row is (R190, R197), and reset (R240 to R242). The block takes no trap (R219): a refused
transaction's response and sticky bit, `raiseBusError`, are all that stands in an exception's place. -/

namespace Sys2Proof.Machine

/-! ## Cell lists -/

/-- The value under a key, none where no entry holds it. -/
def cellGet {α : Type} (k : Nat) : List (Nat × α) → Option α
  | [] => none
  | c :: l => if c.1 = k then some c.2 else cellGet k l

/-- Puts a value under a key, keeping the keys strictly rising. -/
def cellSet {α : Type} (k : Nat) (v : α) : List (Nat × α) → List (Nat × α)
  | [] => [(k, v)]
  | c :: l =>
    if k < c.1 then (k, v) :: c :: l
    else if c.1 = k then (k, v) :: l
    else c :: cellSet k v l

/-- Keys strictly rising: at most one entry a key, and one list for each content. -/
abbrev cellsSorted {α : Type} (l : List (Nat × α)) : Prop := l.Pairwise fun a b => a.1 < b.1

/-- The canonical form of frame memory. An unlisted offset holds no value, so every byte may be listed. -/
abbrev Memory.wf (m : Memory) : Prop := cellsSorted m ∧ ∀ c ∈ m, c.1 < Config.fbBytes

/-! ## Frame memory (R11, R36, R62) -/

/-- One byte of frame memory, none where it has not been written since reset (R241). -/
def readByte (m : Memory) (a : Nat) : Option Byte := cellGet a m

def writeByte (m : Memory) (a : Nat) (b : Byte) : Memory := cellSet a b m

/-- `MemRead(a, n)`, little-endian (R11, R62); none where a byte has not been written since reset. -/
def memRead (m : Memory) (a : Nat) : Nat → Option Word
  | 0 => some 0
  | n + 1 =>
    match readByte m a, memRead m (a + 1) n with
    | some b, some above => some (joinByte b above)
    | _, _ => none

/-- `MemWrite(a, n, v)`, little-endian (R11, R62). -/
def memWrite (m : Memory) (a : Nat) : Nat → Word → Memory
  | 0, _ => m
  | n + 1, v => memWrite (writeByte m a (lowByte v)) (a + 1) n (v >>> Config.chw)

/-! ## Updates of State, one a field -/

def State.respond (r : Response) (s : State) : State := { s with response := some r }
def State.withStatus (x : Status) (s : State) : State := { s with status := x }
def State.withIrqEn (x : IrqEn) (s : State) : State := { s with irqEn := x }
def State.withWinOrg (x : WinOrg) (s : State) : State := { s with winOrg := x }
def State.withWinSize (x : WinSize) (s : State) : State := { s with winSize := x }
def State.withFb (x : Memory) (s : State) : State := { s with fb := x }
def State.withGw (x : GrayArray) (s : State) : State := { s with gw := x }
def State.withLatch (x : Latch) (s : State) : State := { s with latch := x }

/-- `PHASE` and the scan cursor. -/
def State.moveTo (p : Phase) (cx cy : Nat) (s : State) : State :=
  { s with phase := p, cx := cx, cy := cy }

/-! ## Responses and refusals (R11) -/

/-- `respond OK(rdata)`. -/
def respondOk (d : Word) (s : State) : State := s.respond ⟨false, d⟩

/-- `respond ERR`; `rdata` is 0 (R90). -/
def respondErr (s : State) : State := s.respond ⟨true, 0⟩

/-- Sets the sticky bit of a cause (R210). -/
def setSticky (c : Cause) (s : State) : State := s.withStatus (s.status.raise c)

/-- `raise BusError(cause)`: ERR, the sticky bit the cause names if any, nothing else (R11, R219). -/
def raiseBusError (c : Option Cause) (s : State) : State :=
  match c with
  | some c => respondErr (setSticky c s)
  | none => respondErr s

/-! ## Frame access (R190, R197) -/

/-- A frame read of `n` bytes at `off`: refused while BUSY (R197), else the bytes zero-extended (R97);
a byte not written since reset is a fault (R190, U5). -/
def frameRead (off : FbOff) (n : Nat) (s : State) : Host.Outcome State Fault Refusal :=
  if s.status.busy then
    .next (raiseBusError (some .accErr) s)
  else
    match memRead s.fb off.toNat n with
    | some v => .next (respondOk v s)
    | none => .fault .unwrittenHostRead

/-- A frame write of the `n` low bytes of `d` at `off`: refused while BUSY (R197). -/
def frameWrite (off : FbOff) (n : Nat) (d : Word) (s : State) : Host.Outcome State Fault Refusal :=
  if s.status.busy then
    .next (raiseBusError (some .accErr) s)
  else
    .next (respondOk 0 (s.withFb (memWrite s.fb off.toNat n d)))

/-! ## Reset (R240 to R243) -/

/-- The block at its reset values (R241), with `rst_n` at a level. What the outside world still has to
do to the block is not the block's, and stays (DEDUCED, log entry 7). -/
def resetBlock (level : Bool) (s : State) : State :=
  { State.reset with rstN := level, hostQueue := s.hostQueue, turns := s.turns }

/-- `rst_n = 0`: everything goes to its reset value, frame memory holds no defined byte (R242, U6). -/
def assertReset (s : State) : State := resetBlock false s

/-- `rst_n` returns to 1: the state is R241's (R240). No effect where `rst_n` is 1 already. -/
def releaseReset (s : State) : State := if s.rstN then s else resetBlock true s

end Sys2Proof.Machine
end

