-- ==== Sys2Proof/Machine/FrameMemory.lean ====
section
/-! DEFINITION. The frame-memory transactions (R190 to R197), one meaning a row. -/

namespace Sys2Proof.Machine

/-- `RD8_FB` (R191). -/
def execRd8Fb (off : FbOff) (s : State) : Host.Outcome State Fault Refusal := frameRead off 1 s

/-- `RD16_FB` (R192). -/
def execRd16Fb (off : FbOff) (s : State) : Host.Outcome State Fault Refusal := frameRead off 2 s

/-- `RD32_FB` (R193). -/
def execRd32Fb (off : FbOff) (s : State) : Host.Outcome State Fault Refusal := frameRead off 4 s

/-- `WR8_FB` (R194). -/
def execWr8Fb (off : FbOff) (d : Word) (s : State) : Host.Outcome State Fault Refusal :=
  frameWrite off 1 d s

/-- `WR16_FB` (R195). -/
def execWr16Fb (off : FbOff) (d : Word) (s : State) : Host.Outcome State Fault Refusal :=
  frameWrite off 2 d s

/-- `WR32_FB` (R196). -/
def execWr32Fb (off : FbOff) (d : Word) (s : State) : Host.Outcome State Fault Refusal :=
  frameWrite off 4 d s

end Sys2Proof.Machine
end

