-- ==== Sys2Proof/Machine/Registers.lean ====
section
/-! DEFINITION. The register transactions (R150 to R164), one meaning a row. -/

namespace Sys2Proof.Machine

/-- `RD_ID` (R151). -/
def execRdId (s : State) : Host.Outcome State Fault Refusal := .next (respondOk Config.idValue s)

/-- `WR_ID` (R152): no effect. -/
def execWrId (_d : Word) (s : State) : Host.Outcome State Fault Refusal := .next (respondOk 0 s)

/-- `RD_GEOM` (R153). -/
def execRdGeom (s : State) : Host.Outcome State Fault Refusal := .next (respondOk Config.geomValue s)

/-- `WR_GEOM` (R154): no effect. -/
def execWrGeom (_d : Word) (s : State) : Host.Outcome State Fault Refusal := .next (respondOk 0 s)

/-- `RD_CTRL` (R155): reads 0 at all times. -/
def execRdCtrl (s : State) : Host.Outcome State Fault Refusal := .next (respondOk 0 s)

/-- `(AX0, AY0, AW, AH) <- (WIN_ORG.X0, WIN_ORG.Y0, WIN_SIZE.W, WIN_SIZE.H)` (R40, R156). -/
def latchWindow (s : State) : State :=
  s.withLatch ⟨s.winOrg.x0, s.winOrg.y0, s.winSize.w, s.winSize.h⟩

/-- The requested operation, its checks in the order of R217 (R156, R127, R128). -/
def startOperation (s : State) : State :=
  if s.status.busy then
    setSticky .ovrErr s
  else if !winValid s.winOrg s.winSize then
    setSticky .cfgErr s
  else if winEmpty s.winSize then
    setSticky .doneBit (latchWindow s)
  else
    ((latchWindow s).moveTo .luma 0 0).withStatus { s.status with busy := true }

/-- `WR_CTRL` (R156). -/
def execWrCtrl (d : Word) (s : State) : Host.Outcome State Fault Refusal :=
  .next (respondOk 0 (if startBit d then startOperation s else s))

/-- `RD_STATUS` (R157). -/
def execRdStatus (s : State) : Host.Outcome State Fault Refusal :=
  .next (respondOk s.status.word s)

/-- `WR_STATUS` (R158). -/
def execWrStatus (d : Word) (s : State) : Host.Outcome State Fault Refusal :=
  .next (respondOk 0 (s.withStatus (s.status.clear d)))

/-- `RD_IRQ_EN` (R159). -/
def execRdIrqEn (s : State) : Host.Outcome State Fault Refusal :=
  .next (respondOk s.irqEn.word s)

/-- `WR_IRQ_EN` (R160). -/
def execWrIrqEn (d : Word) (s : State) : Host.Outcome State Fault Refusal :=
  .next (respondOk 0 (s.withIrqEn (IrqEn.ofWord d)))

/-- `RD_WIN_ORG` (R161): the programmed value, not the latch. -/
def execRdWinOrg (s : State) : Host.Outcome State Fault Refusal :=
  .next (respondOk s.winOrg.word s)

/-- `WR_WIN_ORG` (R162). -/
def execWrWinOrg (d : Word) (s : State) : Host.Outcome State Fault Refusal :=
  .next (respondOk 0 (s.withWinOrg (WinOrg.ofWord d)))

/-- `RD_WIN_SIZE` (R163). -/
def execRdWinSize (s : State) : Host.Outcome State Fault Refusal :=
  .next (respondOk s.winSize.word s)

/-- `WR_WIN_SIZE` (R164). -/
def execWrWinSize (d : Word) (s : State) : Host.Outcome State Fault Refusal :=
  .next (respondOk 0 (s.withWinSize (WinSize.ofWord d)))

end Sys2Proof.Machine
end

