-- ==== Sys2Proof/Syntax.lean ====
section
/-! DEFINITION. The instructions of the block: one constructor per row of spec/opcode_table.json (R93).
A frame row carries the whole offset `ADDR[14:0]`, a write row the whole `wdata`; alignment is
WellFormed's. -/

namespace Sys2Proof

/-- The 14 register rows (R151 to R164) and the 6 frame-memory rows (R191 to R196). -/
inductive Instr where
  | rdId
  | wrId (d : Word)
  | rdGeom
  | wrGeom (d : Word)
  | rdCtrl
  | wrCtrl (d : Word)
  | rdStatus
  | wrStatus (d : Word)
  | rdIrqEn
  | wrIrqEn (d : Word)
  | rdWinOrg
  | wrWinOrg (d : Word)
  | rdWinSize
  | wrWinSize (d : Word)
  | rd8Fb (off : FbOff)
  | rd16Fb (off : FbOff)
  | rd32Fb (off : FbOff)
  | wr8Fb (off : FbOff) (d : Word)
  | wr16Fb (off : FbOff) (d : Word)
  | wr32Fb (off : FbOff) (d : Word)
  deriving DecidableEq, Repr

end Sys2Proof
end

