-- ==== Sys2Proof/Machine/Dispatch.lean ====
section
/-! DEFINITION. The meaning of each row of spec/opcode_table.json, as one transaction performed on a state. -/

namespace Sys2Proof.Machine

def exec (i : Instr) (s : State) : Host.Outcome State Fault Refusal :=
  match i with
  | .rdId => Sys2Proof.Machine.execRdId s
  | .wrId d => Sys2Proof.Machine.execWrId d s
  | .rdGeom => Sys2Proof.Machine.execRdGeom s
  | .wrGeom d => Sys2Proof.Machine.execWrGeom d s
  | .rdCtrl => Sys2Proof.Machine.execRdCtrl s
  | .wrCtrl d => Sys2Proof.Machine.execWrCtrl d s
  | .rdStatus => Sys2Proof.Machine.execRdStatus s
  | .wrStatus d => Sys2Proof.Machine.execWrStatus d s
  | .rdIrqEn => Sys2Proof.Machine.execRdIrqEn s
  | .wrIrqEn d => Sys2Proof.Machine.execWrIrqEn d s
  | .rdWinOrg => Sys2Proof.Machine.execRdWinOrg s
  | .wrWinOrg d => Sys2Proof.Machine.execWrWinOrg d s
  | .rdWinSize => Sys2Proof.Machine.execRdWinSize s
  | .wrWinSize d => Sys2Proof.Machine.execWrWinSize d s
  | .rd8Fb off => Sys2Proof.Machine.execRd8Fb off s
  | .rd16Fb off => Sys2Proof.Machine.execRd16Fb off s
  | .rd32Fb off => Sys2Proof.Machine.execRd32Fb off s
  | .wr8Fb off d => Sys2Proof.Machine.execWr8Fb off d s
  | .wr16Fb off d => Sys2Proof.Machine.execWr16Fb off d s
  | .wr32Fb off d => Sys2Proof.Machine.execWr32Fb off d s

end Sys2Proof.Machine
end

