-- ==== Sys2Proof/WellFormed.lean ====
section
/-! DEFINITION. Which terms of `Instr` are instructions of the block: a 16-bit frame access has an even
offset, a 32-bit one an offset that is a multiple of 4 (R65, R192, R193, R195, R196). -/

namespace Sys2Proof

/-- `off[0] = 0` (R65). -/
def aligned2 (off : FbOff) : Bool := off.extractLsb' 0 1 == 0#1

/-- `off[1:0] = 0b00` (R65). -/
def aligned4 (off : FbOff) : Bool := off.extractLsb' 0 2 == 0#2

/-- The alignment the instruction's row fixes; every other operand may hold any value. -/
def Instr.wellFormed : Instr → Bool
  | .rdId | .wrId _ | .rdGeom | .wrGeom _ | .rdCtrl | .wrCtrl _ | .rdStatus | .wrStatus _
  | .rdIrqEn | .wrIrqEn _ | .rdWinOrg | .wrWinOrg _ | .rdWinSize | .wrWinSize _ => true
  | .rd8Fb _ | .wr8Fb _ _ => true
  | .rd16Fb off | .wr16Fb off _ => aligned2 off
  | .rd32Fb off | .wr32Fb off _ => aligned4 off

end Sys2Proof
end

