-- ==== Sys2Proof/Decode.lean ====
section
/-! DEFINITION. The transaction decoder of R93, total on every `TD`, rejecting by name (R99), and the
encoder written from the same formats (R91, R92, R22). `opcodeRows` is the match and mask table of R91. -/

namespace Sys2Proof

/-! ## Fields of a descriptor (R91) -/

/-- `TD[18]`, `WR`: 1 for a write. -/
def tdWr (td : TD) : Bool := td.getLsbD 18

/-- `TD[17:16]`, `SIZE`. -/
def tdSize (td : TD) : BitVec 2 := td.extractLsb' 16 2

/-- `TD[15:0]`, `ADDR`. -/
def tdAddr (td : TD) : Addr := td.extractLsb' 0 16

/-- `TD = {WR, SIZE, ADDR}` (R101). -/
def mkTd (wr : Bool) (size : BitVec 2) (addr : Addr) : TD := (BitVec.ofBool wr ++ size ++ addr).setWidth 19

/-- `ADDR[15] = 1`: the frame-memory aperture (R93, R60). -/
def inAperture (a : Addr) : Bool := a.getLsbD 15

/-- `off = ADDR[14:0]` (R96). -/
def fbOffOf (a : Addr) : FbOff := a.extractLsb' 0 15

/-- The host address of a frame-memory offset: `0x8000 + off` (R60). -/
def fbAddr (off : FbOff) : Addr := (1#1 ++ off).setWidth 16

/-- `SIZE` codes (R92). -/
def size8 : BitVec 2 := 0b00#2
def size16 : BitVec 2 := 0b01#2
def size32 : BitVec 2 := 0b10#2
def sizeReserved : BitVec 2 := 0b11#2

/-! ## The register map (R22) -/

/-- The seven registers of R22. -/
inductive Reg where
  | id | geom | ctrl | status | irqEn | winOrg | winSize
  deriving DecidableEq, Repr

/-- Byte offsets of R22. -/
def Reg.offset : Reg → Addr
  | .id      => 0x0000#16
  | .geom    => 0x0004#16
  | .ctrl    => 0x0008#16
  | .status  => 0x000C#16
  | .irqEn   => 0x0010#16
  | .winOrg  => 0x0014#16
  | .winSize => 0x0018#16

def allRegs : List Reg := [.id, .geom, .ctrl, .status, .irqEn, .winOrg, .winSize]

/-- The register at an offset, none where the offset is unmapped. -/
def regAt (a : Addr) : Option Reg := allRegs.find? fun r => r.offset == a

/-- `RD_<name>` or `WR_<name>` (R93, case 3). -/
def regInstr (wr : Bool) (d : Word) : Reg → Instr
  | .id      => if wr then .wrId d else .rdId
  | .geom    => if wr then .wrGeom d else .rdGeom
  | .ctrl    => if wr then .wrCtrl d else .rdCtrl
  | .status  => if wr then .wrStatus d else .rdStatus
  | .irqEn   => if wr then .wrIrqEn d else .rdIrqEn
  | .winOrg  => if wr then .wrWinOrg d else .rdWinOrg
  | .winSize => if wr then .wrWinSize d else .rdWinSize

/-! ## Decode (R93) -/

/-- Why a `TD` is illegal (R99). Each one responds ERR and does nothing else. -/
inductive DecodeError where
  /-- `SIZE = 0b11` (R92, R199). -/
  | reservedSize
  /-- A frame-memory access that is misaligned for its size (R198). -/
  | misalignedFrame
  /-- A register-region access with `SIZE != 0b10` (R165). -/
  | registerSize
  /-- A register-region word access with `ADDR[1:0] != 0b00` (R165). -/
  | misalignedRegister
  /-- An unmapped offset `0x001C` to `0x7FFC` (R165). -/
  | unmapped
  deriving DecidableEq, Repr

/-- R93, case 2. -/
def decodeFrame (wr : Bool) (size : BitVec 2) (off : FbOff) (d : Word) : Except DecodeError Instr :=
  if size = size8 then
    .ok (if wr then .wr8Fb off d else .rd8Fb off)
  else if size = size16 && aligned2 off then
    .ok (if wr then .wr16Fb off d else .rd16Fb off)
  else if size = size32 && aligned4 off then
    .ok (if wr then .wr32Fb off d else .rd32Fb off)
  else
    .error .misalignedFrame

/-- R93, cases 3 and 4. -/
def decodeRegister (wr : Bool) (size : BitVec 2) (a : Addr) (d : Word) : Except DecodeError Instr :=
  if size = size32 then
    match regAt a with
    | some r => .ok (regInstr wr d r)
    | none =>
      if a.extractLsb' 0 2 = 0#2 then .error .unmapped else .error .misalignedRegister
  else
    .error .registerSize

/-- The decoder: one outcome for every transaction, in the order of R93. -/
def decode (t : Txn) : Except DecodeError Instr :=
  if tdSize t.td = sizeReserved then
    .error .reservedSize
  else if inAperture (tdAddr t.td) then
    decodeFrame (tdWr t.td) (tdSize t.td) (fbOffOf (tdAddr t.td)) t.wdata
  else
    decodeRegister (tdWr t.td) (tdSize t.td) (tdAddr t.td) t.wdata

/-! ## Encode -/

/-- The `WR` field of an instruction's row. -/
def Instr.isWrite : Instr → Bool
  | .wrId _ | .wrGeom _ | .wrCtrl _ | .wrStatus _ | .wrIrqEn _ | .wrWinOrg _ | .wrWinSize _
  | .wr8Fb _ _ | .wr16Fb _ _ | .wr32Fb _ _ => true
  | .rdId | .rdGeom | .rdCtrl | .rdStatus | .rdIrqEn | .rdWinOrg | .rdWinSize
  | .rd8Fb _ | .rd16Fb _ | .rd32Fb _ => false

/-- The `SIZE` field of an instruction's row. -/
def Instr.size : Instr → BitVec 2
  | .rd8Fb _ | .wr8Fb _ _ => size8
  | .rd16Fb _ | .wr16Fb _ _ => size16
  | .rd32Fb _ | .wr32Fb _ _ => size32
  | .rdId | .wrId _ | .rdGeom | .wrGeom _ | .rdCtrl | .wrCtrl _ | .rdStatus | .wrStatus _
  | .rdIrqEn | .wrIrqEn _ | .rdWinOrg | .wrWinOrg _ | .rdWinSize | .wrWinSize _ => size32

/-- The `ADDR` field of an instruction's row. -/
def Instr.addr : Instr → Addr
  | .rdId | .wrId _ => Reg.offset .id
  | .rdGeom | .wrGeom _ => Reg.offset .geom
  | .rdCtrl | .wrCtrl _ => Reg.offset .ctrl
  | .rdStatus | .wrStatus _ => Reg.offset .status
  | .rdIrqEn | .wrIrqEn _ => Reg.offset .irqEn
  | .rdWinOrg | .wrWinOrg _ => Reg.offset .winOrg
  | .rdWinSize | .wrWinSize _ => Reg.offset .winSize
  | .rd8Fb off | .rd16Fb off | .rd32Fb off => fbAddr off
  | .wr8Fb off _ | .wr16Fb off _ | .wr32Fb off _ => fbAddr off

/-- The write data of an instruction; a read carries none, and drives 0. -/
def Instr.wdata : Instr → Word
  | .wrId d | .wrGeom d | .wrCtrl d | .wrStatus d | .wrIrqEn d | .wrWinOrg d | .wrWinSize d => d
  | .wr8Fb _ d | .wr16Fb _ d | .wr32Fb _ d => d
  | .rdId | .rdGeom | .rdCtrl | .rdStatus | .rdIrqEn | .rdWinOrg | .rdWinSize
  | .rd8Fb _ | .rd16Fb _ | .rd32Fb _ => 0

/-- The transaction of an instruction (R91, R101). -/
def encode (i : Instr) : Txn := ⟨mkTd i.isWrite i.size i.addr, i.wdata⟩

/-! ## The opcode table (R91) -/

/-- The instruction's name in spec/opcode_table.json. -/
def Instr.mnemonic : Instr → String
  | .rdId => "RD_ID"             | .wrId _ => "WR_ID"
  | .rdGeom => "RD_GEOM"         | .wrGeom _ => "WR_GEOM"
  | .rdCtrl => "RD_CTRL"         | .wrCtrl _ => "WR_CTRL"
  | .rdStatus => "RD_STATUS"     | .wrStatus _ => "WR_STATUS"
  | .rdIrqEn => "RD_IRQ_EN"      | .wrIrqEn _ => "WR_IRQ_EN"
  | .rdWinOrg => "RD_WIN_ORG"    | .wrWinOrg _ => "WR_WIN_ORG"
  | .rdWinSize => "RD_WIN_SIZE"  | .wrWinSize _ => "WR_WIN_SIZE"
  | .rd8Fb _ => "RD8_FB"         | .wr8Fb _ _ => "WR8_FB"
  | .rd16Fb _ => "RD16_FB"       | .wr16Fb _ _ => "WR16_FB"
  | .rd32Fb _ => "RD32_FB"       | .wr32Fb _ _ => "WR32_FB"

/-- One row of spec/opcode_table.json. -/
structure OpcodeRow where
  mnemonic : String
  value    : TD
  mask     : TD
  deriving DecidableEq, Repr

/-- `TD & mask == match` (R91). -/
def OpcodeRow.matches (r : OpcodeRow) (td : TD) : Bool := td &&& r.mask == r.value

/-- The register rows of spec/opcode_table.json. -/
def registerRows : List OpcodeRow :=
  [⟨"RD_ID", 0x20000, 0x7ffff⟩, ⟨"WR_ID", 0x60000, 0x7ffff⟩,
   ⟨"RD_GEOM", 0x20004, 0x7ffff⟩, ⟨"WR_GEOM", 0x60004, 0x7ffff⟩,
   ⟨"RD_CTRL", 0x20008, 0x7ffff⟩, ⟨"WR_CTRL", 0x60008, 0x7ffff⟩,
   ⟨"RD_STATUS", 0x2000c, 0x7ffff⟩, ⟨"WR_STATUS", 0x6000c, 0x7ffff⟩,
   ⟨"RD_IRQ_EN", 0x20010, 0x7ffff⟩, ⟨"WR_IRQ_EN", 0x60010, 0x7ffff⟩,
   ⟨"RD_WIN_ORG", 0x20014, 0x7ffff⟩, ⟨"WR_WIN_ORG", 0x60014, 0x7ffff⟩,
   ⟨"RD_WIN_SIZE", 0x20018, 0x7ffff⟩, ⟨"WR_WIN_SIZE", 0x60018, 0x7ffff⟩]

/-- The frame-memory rows of spec/opcode_table.json. -/
def frameRows : List OpcodeRow :=
  [⟨"RD8_FB", 0x08000, 0x78000⟩, ⟨"RD16_FB", 0x18000, 0x78001⟩, ⟨"RD32_FB", 0x28000, 0x78003⟩,
   ⟨"WR8_FB", 0x48000, 0x78000⟩, ⟨"WR16_FB", 0x58000, 0x78001⟩, ⟨"WR32_FB", 0x68000, 0x78003⟩]

def opcodeRows : List OpcodeRow := registerRows ++ frameRows

/-! ## The host's word form -/

/-- The transaction that a table word stands for: the low `nbits` bits of `w` are the descriptor, the
operand word `wdata`, to which the table gives no bits, is 0. None where a bit above `TD[18]` is set. -/
def tableTxn (nbits w : Nat) : Option Txn :=
  if w % 2 ^ nbits < 2 ^ 19 then some ⟨BitVec.ofNat 19 (w % 2 ^ nbits), 0⟩ else none

/-- The instruction the decoder reads from a word of spec/opcode_table.json, none where it refuses. -/
def decodeTableWord (nbits w : Nat) : Option Instr :=
  match tableTxn nbits w with
  | some t => (decode t).toOption
  | none => none

end Sys2Proof
end

