-- ==== Sys2Proof/Machine/Diffusion.lean ====
section
/-! DEFINITION. The arithmetic of the transform on integers: `tdiv` (R10), luminance (R111), quantisation
(R112), error and shares (R113), and the working gray array they are kept in (R37). -/

namespace Sys2Proof.Machine

/-- Division rounding toward zero (R10). -/
def tdiv (a b : Int) : Int := if 0 ≤ a then a / b else -(-a / b)

/-- `L = 30*R + 59*G + 11*B` (R111). -/
def luminance (r g b : Byte) : Int :=
  (Config.lumaR * r.toNat + Config.lumaG * g.toNat + Config.lumaB * b.toNat : Nat)

/-- The quantiser's choice: white where `w` is not below the threshold (R112). -/
def isWhite (w : Int) : Bool := decide (Config.threshC ≤ w)

/-- The output level `v` (R112). -/
def level (w : Int) : Byte := if isWhite w then Config.vHi else Config.vLo

/-- Its centi-level value `V` (R112). -/
def levelC (w : Int) : Int := if isWhite w then Config.vHiC else Config.vLoC

/-- `e = w - V` (R113). -/
def quantError (w : Int) : Int := w - levelC w

/-- `tdiv(k*e, 16)` (R113). -/
def shareOf (k e : Int) : Int := tdiv (k * e) Config.kDen

/-! ## The working gray array (R37) -/

/-- The key of `GW[i][j]`. A window column is less than 256, so no two cells of a window share one
(DESIGN CHOICE, log entry 9). -/
def grayKey (i j : Nat) : Nat := 256 * i + j

/-- `GW[i][j]` as stored; a free value where nothing has been written (U7). -/
def grayAt (gw : GrayArray) (i j : Nat) : Gray :=
  (cellGet (grayKey i j) gw).getD (Config.freeGray (grayKey i j))

/-- `GW[i][j] <- v`, stored in 18 bits (R7, R37). -/
def graySet (gw : GrayArray) (i j : Nat) (v : Int) : GrayArray :=
  cellSet (grayKey i j) (BitVec.ofInt 18 v) gw

/-- The target of a share lies in the latched window (R114). -/
def inWindow (l : Latch) (jj ii : Int) : Bool :=
  decide (0 ≤ jj) && decide (jj < l.aw.toNat) && decide (ii < l.ah.toNat)

/-- `share(jj, ii, s)` of R119: added to its target, or discarded outside the window (R114, R115). -/
def share (l : Latch) (jj ii s : Int) (gw : GrayArray) : GrayArray :=
  if inWindow l jj ii then
    graySet gw ii.toNat jj.toNat ((grayAt gw ii.toNat jj.toNat).toInt + s)
  else gw

/-- The four shares of a visit of `(j, i)` with error `e` (R113, R119). -/
def spread (l : Latch) (j i e : Int) (gw : GrayArray) : GrayArray :=
  share l (j + 1) (i + 1) (shareOf Config.kSE e) <|
  share l j (i + 1) (shareOf Config.kS e) <|
  share l (j - 1) (i + 1) (shareOf Config.kSW e) <|
  share l (j + 1) i (shareOf Config.kE e) gw

/-- `MemWrite(p, 1, v); MemWrite(p+1, 1, v); MemWrite(p+2, 1, v)` (R116, R119). -/
def paint (m : Memory) (p : Nat) (v : Byte) : Memory :=
  writeByte (writeByte (writeByte m p v) (p + 1) v) (p + 2) v

/-- The luminance of the pixel whose R byte is at `p`, none where R, G or B has not been written since
reset (R111, R118, R249). -/
def pixelLuma (m : Memory) (p : Nat) : Option Int :=
  match readByte m p, readByte m (p + 1), readByte m (p + 2) with
  | some r, some g, some b => some (luminance r g b)
  | _, _, _ => none

end Sys2Proof.Machine
end

