-- ==== Sys2Proof/Machine/Engine.lean ====
section
/-! DEFINITION. The engine agent: `LUMA_STEP`, `VISIT_STEP`, the cursor advance and `COMPLETE_STEP`
(R118 to R121), and when each is enabled (R14, R38). -/

namespace Sys2Proof.Machine

/-- The frame-memory offset the cursor is at: `4*((AY0 + CY)*128 + (AX0 + CX))` (R118, R119). -/
def cursorOffset (s : State) : Nat :=
  pixelOffset (s.latch.ax0.toNat + s.cx) (s.latch.ay0.toNat + s.cy)

/-- The cursor after `CX <- CX + 1; if CX = AW then CX <- 0; CY <- CY + 1` (R120). -/
def nextCursor (l : Latch) (cx cy : Nat) : Nat × Nat :=
  if cx + 1 = l.aw.toNat then (0, cy + 1) else (cx + 1, cy)

/-- `advance(ph)` (R120). -/
def advance (ph : Phase) (s : State) : State :=
  let c := nextCursor s.latch s.cx s.cy
  if ph = .luma ∧ c.2 = s.latch.ah.toNat then s.moveTo .diffuse 0 0 else s.moveTo s.phase c.1 c.2

/-- `LUMA_STEP` (R118). -/
def lumaStep (s : State) : Host.Outcome State Fault Refusal :=
  match pixelLuma s.fb (cursorOffset s) with
  | some v => .next (advance .luma (s.withGw (graySet s.gw s.cy s.cx v)))
  | none => .fault .unwrittenLumaRead

/-- `VISIT_STEP` (R119). -/
def visitStep (s : State) : State :=
  let w := (grayAt s.gw s.cy s.cx).toInt
  advance .diffuse
    ((s.withGw (spread s.latch s.cx s.cy (quantError w) s.gw)).withFb
      (paint s.fb (cursorOffset s) (level w)))

/-- `COMPLETE_STEP` (R121). -/
def completeStep (s : State) : State :=
  (s.moveTo .idle s.cx s.cy).withStatus { s.status with busy := false, done := true }

/-- An engine step is enabled: only while BUSY = 1 (R14), and out of reset (R240); for states no run reaches,
DEDUCED, log entry 8. -/
def engineEnabled (s : State) : Bool :=
  s.rstN && s.status.busy &&
    match s.phase with
    | .idle => false
    | .luma => true
    | .diffuse => decide (s.cy ≤ s.latch.ah.toNat)

/-- The engine's turn: the one step its phase and cursor enable (R118, R119, R121), none otherwise. -/
def engineStep (s : State) : Host.Outcome State Fault Refusal :=
  if engineEnabled s then
    match s.phase with
    | .idle => .next s
    | .luma => lumaStep s
    | .diffuse => if s.cy < s.latch.ah.toNat then .next (visitStep s) else .next (completeStep s)
  else .next s

end Sys2Proof.Machine
end

