-- ==== Sys2Proof/Machine/Turns.lean ====
section
/-! DEFINITION. Which agent moves next (R14, R69), and the transaction the host then presents on the port
(R63, R90). The block fetches no instruction (R21, R74): its instructions are the host's transactions. -/

namespace Sys2Proof.Machine

/-- The turn where none is laid down (DESIGN CHOICE, log entry 1): the engine's while it has a step enabled, which is
`ENGINE_FAIR` (R8), else the host's. -/
def defaultTurn (s : State) : Turn := if engineEnabled s then .engine else .host

/-- The next turn, and the state with that turn used up. -/
def takeTurn (s : State) : Turn × State :=
  match s.turns with
  | [] => (defaultTurn s, s)
  | t :: ts => (t, { s with turns := ts })

/-- What the host's turn finds on the port. -/
inductive Presented where
  /-- No transaction is performed: none is left, or `rst_n = 0` (R240). -/
  | nothing
  /-- A transaction that no row matches (R99). -/
  | illegal (e : DecodeError) (s : State)
  /-- A transaction of a row. -/
  | row (i : Instr) (s : State)
  deriving DecidableEq, Repr

/-- The transaction at the head of the host's queue, decoded. While `rst_n = 0` it is not acknowledged,
so it stays presented (R90, R240; DEDUCED, log entry 6). -/
def present (s : State) : Presented :=
  if s.rstN then
    match s.hostQueue with
    | [] => .nothing
    | t :: q =>
      match decode t with
      | .ok i => .row i { s with hostQueue := q }
      | .error e => .illegal e { s with hostQueue := q }
  else .nothing

end Sys2Proof.Machine
end

