-- ==== Sys2Proof/Machine/Step.lean ====
section
/-! DEFINITION. One step of the block: one host transaction, one engine step or one move of the reset pin,
each atomic (R63, R69, R240). -/

namespace Sys2Proof.Machine

def step (s : State) : Host.Outcome State Fault Refusal :=
  match takeTurn s with
  | (.host, s') =>
    match present s' with
    | .nothing => .next s'
    | .illegal _ s'' => .next (raiseBusError none s'')
    | .row i s'' => exec i s''
  | (.engine, s') => engineStep s'
  | (.assertReset, s') => .next (assertReset s')
  | (.releaseReset, s') => .next (releaseReset s')

/-- `s` with the transaction of a table word next on the host's port and the host's turn next, out of
reset, so that the next step performs it (DESIGN CHOICE, log entry 2). -/
def State.withFetchWord (s : State) (nbits w : Nat) : State :=
  match tableTxn nbits w with
  | some t => { s with rstN := true, hostQueue := t :: s.hostQueue, turns := .host :: s.turns }
  | none => s

end Sys2Proof.Machine
end

