-- ==== Sys2Proof/Machine/Assembler.lean ====
section
/-! DEFINITION. The host's assembler syntax and pseudo-instructions as transactions (R101, R102), and where a
platform sees the block (R60). Conveniences of a host: the block itself sees transactions only. -/

namespace Sys2Proof.Machine

/-- `RD8`, `RD16`, `RD32` (R101). -/
def asmRd8 (a : Addr) : Txn := ⟨mkTd false size8 a, 0⟩
def asmRd16 (a : Addr) : Txn := ⟨mkTd false size16 a, 0⟩
def asmRd32 (a : Addr) : Txn := ⟨mkTd false size32 a, 0⟩

/-- `WR8`, `WR16`, `WR32` (R101). -/
def asmWr8 (a : Addr) (d : Word) : Txn := ⟨mkTd true size8 a, d⟩
def asmWr16 (a : Addr) (d : Word) : Txn := ⟨mkTd true size16 a, d⟩
def asmWr32 (a : Addr) (d : Word) : Txn := ⟨mkTd true size32 a, d⟩

/-- The symbol `FB(x, y)`: `0x8000 + 4*(y*128 + x)` (R101). -/
def fbSymbol (x y : Nat) : Addr := BitVec.ofNat 16 (Config.fbBase + pixelOffset x y)

/-- The symbol `FB(x, y, c)`: `FB(x, y) + c` (R101). -/
def fbChannelSymbol (x y c : Nat) : Addr := BitVec.ofNat 16 (Config.fbBase + pixelOffset x y + c)

/-- The symbols of R101: a register's name, `FB(x, y)` and `FB(x, y, c)`. -/
inductive AsmSymbol where
  | reg (r : Reg)
  | pixel (x y : Nat)
  | channel (x y c : Nat)
  deriving DecidableEq, Repr

/-- `<addr>`: a 16-bit number or a symbol (R101). -/
inductive AsmAddr where
  | number (a : Addr)
  | symbol (s : AsmSymbol)
  deriving DecidableEq, Repr

/-- A line of a host program (R101), with its comment; a read may name the value it expects. -/
inductive AsmLine where
  | rd8 (a : AsmAddr) (expected : Option Word) (comment : String)
  | rd16 (a : AsmAddr) (expected : Option Word) (comment : String)
  | rd32 (a : AsmAddr) (expected : Option Word) (comment : String)
  | wr8 (a : AsmAddr) (d : Word) (comment : String)
  | wr16 (a : AsmAddr) (d : Word) (comment : String)
  | wr32 (a : AsmAddr) (d : Word) (comment : String)
  deriving DecidableEq, Repr

def asmAddress : AsmAddr → Addr
  | .number a => a
  | .symbol (.reg r) => r.offset
  | .symbol (.pixel x y) => fbSymbol x y
  | .symbol (.channel x y c) => fbChannelSymbol x y c

/-- The transaction of a line: `TD = {WR, SIZE, ADDR}` plus `wdata` (R101). -/
def AsmLine.txn : AsmLine → Txn
  | .rd8 a _ _ => asmRd8 (asmAddress a)
  | .rd16 a _ _ => asmRd16 (asmAddress a)
  | .rd32 a _ _ => asmRd32 (asmAddress a)
  | .wr8 a d _ => asmWr8 (asmAddress a) d
  | .wr16 a d _ => asmWr16 (asmAddress a) d
  | .wr32 a d _ => asmWr32 (asmAddress a) d

/-- The assertion `-> v` of a read line, on the response; no part of the transaction (R101). R101 speaks of
the value only: that an expected value also asserts an OK response is DESIGN CHOICE, log entry 17. -/
def AsmLine.expect : AsmLine → Response → Bool
  | .rd8 _ (some v) _, r | .rd16 _ (some v) _, r | .rd32 _ (some v) _, r => !r.err && r.rdata == v
  | .rd8 _ none _, _ | .rd16 _ none _, _ | .rd32 _ none _, _ => true
  | .wr8 _ _ _, _ | .wr16 _ _ _, _ | .wr32 _ _ _, _ => true

/-- `START` (R102). -/
def asmStart : List Txn := [asmWr32 (Reg.offset .ctrl) 1]

/-- `SETWIN x0, y0, w, h` (R102). -/
def asmSetWin (x0 y0 w h : Word) : List Txn :=
  [asmWr32 (Reg.offset .winOrg) (y0 <<< 16 ||| x0), asmWr32 (Reg.offset .winSize) (h <<< 16 ||| w)]

/-- `CLRSTAT m` (R102). -/
def asmClrStat (m : Word) : List Txn := [asmWr32 (Reg.offset .status) m]

/-- `CLRALL` (R102). -/
def asmClrAll : List Txn := [asmWr32 (Reg.offset .status) 0x1E]

/-- `IRQON m` (R102). -/
def asmIrqOn (m : Word) : List Txn := [asmWr32 (Reg.offset .irqEn) m]

/-- `WRPIX x, y, r, g, b, a` (R102). -/
def asmWrPix (x y : Nat) (r g b a : Byte) : List Txn :=
  [asmWr32 (fbSymbol x y) ((a ++ b ++ g ++ r).setWidth 32)]

/-- `RDPIX x, y` (R102). -/
def asmRdPix (x y : Nat) : List Txn := [asmRd32 (fbSymbol x y)]

/-- `WAITIDLE` whose loop ends at its `n`th read of STATUS, `n >= 1` (R102). The loop is the host's, and
any count may occur (R157, R253; DEDUCED, log entry 13). -/
def asmWaitIdle (n : Nat) : List Txn := List.replicate n (asmRd32 (Reg.offset .status))

/-- `DITHER x0, y0, w, h` whose `WAITIDLE` reads STATUS `n` times (R102). -/
def asmDither (x0 y0 w h : Word) (n : Nat) : List Txn :=
  asmSetWin x0 y0 w h ++ asmStart ++ asmWaitIdle n

/-- The platform's address of a host address of the block, `DE_BASE` being the platform's (R60, U9). -/
def platformAddress (a : Addr) : Nat := Config.deBase + a.toNat

end Sys2Proof.Machine
end

