-- ==== Sys2Proof/Machine/Reference.lean ====
section
/-! DEFINITION. The reference function `ditherRef` of R129: the whole operation as two loops over the window,
on unbounded integers. The step function does not use it; statements compare the engine with it. -/

namespace Sys2Proof.Machine

/-- Window-relative positions `(j, i)` in row-major order (R115, R129). -/
def windowCells (w h : Nat) : List (Nat × Nat) :=
  (List.range h).flatMap fun i => (List.range w).map fun j => (j, i)

/-- The frame-memory offset of window pixel `(j, i)`: `4*((Y0+i)*128 + (X0+j))` (R129). -/
def windowOffset (l : Latch) (j i : Nat) : Nat :=
  pixelOffset (l.ax0.toNat + j) (l.ay0.toNat + i)

/-- The reference's working array, unbounded (R130). -/
abbrev RefGray := List (Nat × Int)

def refGray (gw : RefGray) (i j : Nat) : Int := (cellGet (grayKey i j) gw).getD 0

/-- One turn of the luminance loop; none where the pixel has a byte not written since reset. -/
def refLuma (m : Memory) (l : Latch) (gw : RefGray) (c : Nat × Nat) : Option RefGray :=
  (pixelLuma m (windowOffset l c.1 c.2)).map fun v => cellSet (grayKey c.2 c.1) v gw

/-- `(dj, di, k)` of R129. -/
def refKernel : List (Int × Int × Int) :=
  [(1, 0, Config.kE), (-1, 1, Config.kSW), (0, 1, Config.kS), (1, 1, Config.kSE)]

/-- One turn of the innermost loop. -/
def refShare (l : Latch) (j i e : Int) (gw : RefGray) (k : Int × Int × Int) : RefGray :=
  let jj := j + k.1
  let ii := i + k.2.1
  if 0 ≤ jj ∧ jj < l.aw.toNat ∧ ii < l.ah.toNat then
    cellSet (grayKey ii.toNat jj.toNat) (refGray gw ii.toNat jj.toNat + tdiv (k.2.2 * e) Config.kDen) gw
  else gw

/-- One turn of the diffusion loop. -/
def refVisit (l : Latch) (a : Memory × RefGray) (c : Nat × Nat) : Memory × RefGray :=
  let w := refGray a.2 c.2 c.1
  (paint a.1 (windowOffset l c.1 c.2) (level w),
   refKernel.foldl (refShare l c.1 c.2 (quantError w)) a.2)

/-- The luminance loop. -/
def refLumaPass (m : Memory) (l : Latch) : Option RefGray :=
  (windowCells l.aw.toNat l.ah.toNat).foldlM (refLuma m l) []

/-- The diffusion loop, from frame memory and a working array. -/
def refDiffusePass (l : Latch) (m : Memory) (gw : RefGray) : Memory × RefGray :=
  (windowCells l.aw.toNat l.ah.toNat).foldl (refVisit l) (m, gw)

/-- `ditherRef(FB, X0, Y0, W, H)` (R129); none where the window holds a colour byte not written since
reset, from which nothing defined can be computed (R249; DESIGN CHOICE, log entry 15). -/
def ditherRef (m : Memory) (l : Latch) : Option Memory :=
  (refLumaPass m l).map fun gw => (refDiffusePass l m gw).1

end Sys2Proof.Machine
end

