-- ==== Sys2Proof/Safety.lean ====
section
/-! DEFINITION. The terms statements are written in: final states and what is observed of one (R253), the
invariant of the block (R38, R39, R127, R240), and the range invariant of the working array (R130). -/

namespace Sys2Proof.Machine

/-! ## The end of a run (R253) -/

/-- R253, for a state that a run has reached (a fault ends a run, so none is recorded in a state). -/
def State.final (s : State) : Bool :=
  s.phase == .idle && !s.status.busy && s.hostQueue.isEmpty && s.rstN

/-- What is observed of a final state (R253). -/
structure Observation where
  id : Word
  geom : Word
  ctrl : Word
  status : Word
  irqEn : Word
  winOrg : Word
  winSize : Word
  irq : Bool
  bytes : Memory
  deriving DecidableEq, Repr

/-- The seven registers as `RD32` reads them, the `irq` level, the bytes written since reset (R253). -/
def State.observe (s : State) : Observation :=
  ⟨Config.idValue, Config.geomValue, 0, s.status.word, s.irqEn.word, s.winOrg.word, s.winSize.word,
   s.irq, s.fb⟩

/-! ## The invariant -/

/-- The latched window lies in the frame (R127). -/
def Latch.fits (l : Latch) : Prop :=
  l.ax0.toNat + l.aw.toNat ≤ Config.fw ∧ l.ay0.toNat + l.ah.toNat ≤ Config.fh

/-- The luminance step or visit of `(j, i)` comes before the cursor `(cx, cy)` (R115, R120). -/
def before (cx cy j i : Nat) : Prop := i < cy ∨ (i = cy ∧ j < cx)

/-- What the rules of 10_state.md and 40_dither.md promise of every state of the block. -/
structure State.Inv (s : State) : Prop where
  /-- `BUSY = 1` if and only if `PHASE != IDLE` (R38). -/
  busyIffActive : s.status.busy = true ↔ s.phase ≠ .idle
  /-- Frame memory in its canonical form, inside 32768 bytes (R36). -/
  fbWf : Memory.wf s.fb
  /-- `GW` in its canonical form. -/
  gwSorted : cellsSorted s.gw
  /-- The latch only ever takes a window that fits (R127). -/
  latchFits : s.latch.fits
  /-- `CX` is 0 to 128 and `CY` is 0 to 64 (R39). -/
  cursorRange : s.cx ≤ Config.fw ∧ s.cy ≤ Config.fh
  /-- In the luminance pass the cursor is on a window pixel (R120). -/
  lumaCursor : s.phase = .luma → s.cx < s.latch.aw.toNat ∧ s.cy < s.latch.ah.toNat
  /-- In the diffusion pass it is on a window pixel of a non-empty window, or at the end (R120). -/
  diffuseCursor : s.phase = .diffuse →
    (s.cx < s.latch.aw.toNat ∧ s.cy < s.latch.ah.toNat) ∨
      (s.cx = 0 ∧ s.cy = s.latch.ah.toNat ∧ 0 < s.latch.aw.toNat ∧ 0 < s.latch.ah.toNat)
  /-- A cell the luminance pass has done is written (R37). -/
  lumaWritten : s.phase = .luma → ∀ j i, j < s.latch.aw.toNat → before s.cx s.cy j i →
    (cellGet (grayKey i j) s.gw).isSome = true
  /-- In the diffusion pass every window cell is written (R37). -/
  diffuseWritten : s.phase = .diffuse → ∀ j i, j < s.latch.aw.toNat → i < s.latch.ah.toNat →
    (cellGet (grayKey i j) s.gw).isSome = true
  /-- While `rst_n = 0` the block is at its reset values (the values of R241; that it holds them before
  release is DEDUCED, log entry 7). -/
  heldInReset : s.rstN = false → s = resetBlock false s

/-! ## The range of the working values (R130) -/

/-- The weight of one neighbour's share that `(j, i)` has received when the cursor is at `(cx, cy)`:
`k` if that neighbour is in the window and visited. -/
def arrived (cx cy : Nat) (inside : Bool) (j i k : Nat) : Int :=
  if inside && (decide (i < cy) || (decide (i = cy) && decide (j < cx))) then k else 0

/-- The total weight of the shares that `(j, i)` has received: 7 from the left, 5 from above, 3 from
above-right, 1 from above-left (R130). -/
def receivedWeight (aw cx cy j i : Nat) : Int :=
  arrived cx cy (decide (1 ≤ j)) (j - 1) i 7 +
  arrived cx cy (decide (1 ≤ i)) j (i - 1) 5 +
  arrived cx cy (decide (1 ≤ i) && decide (j + 1 < aw)) (j + 1) (i - 1) 3 +
  arrived cx cy (decide (1 ≤ i) && decide (1 ≤ j)) (j - 1) (i - 1) 1

/-- The bounds of R130 with the induction that proves them: a received share of weight `k` moves a
working value by at most `12800*k/16 = 800*k` centi-levels. -/
structure State.GrayInv (s : State) : Prop where
  /-- Every `GW` entry lies in `[-12800, 38300]`. -/
  range : ∀ c ∈ s.gw, -12800 ≤ c.2.toInt ∧ c.2.toInt ≤ 38300
  /-- The luminance pass has left luminances. -/
  luma : s.phase = .luma → ∀ j i, j < s.latch.aw.toNat → before s.cx s.cy j i →
    0 ≤ (grayAt s.gw i j).toInt ∧ (grayAt s.gw i j).toInt ≤ 25500
  /-- In the diffusion pass a value is off its luminance by no more than the received shares. -/
  diffuse : s.phase = .diffuse → ∀ j i, j < s.latch.aw.toNat → i < s.latch.ah.toNat →
    -(800 * receivedWeight s.latch.aw.toNat s.cx s.cy j i) ≤ (grayAt s.gw i j).toInt ∧
      (grayAt s.gw i j).toInt ≤ 25500 + 800 * receivedWeight s.latch.aw.toNat s.cx s.cy j i

/-! ## Views -/

/-- The state of an operation: what the engine works on and with (R37 to R40, R71). -/
structure OperationView where
  fb : Memory
  gw : GrayArray
  phase : Phase
  cx : Nat
  cy : Nat
  latch : Latch
  busy : Bool
  deriving DecidableEq, Repr

def State.operation (s : State) : OperationView :=
  ⟨s.fb, s.gw, s.phase, s.cx, s.cy, s.latch, s.status.busy⟩

/-- `n` engine turns in a row, ending at a fault. -/
def engineRun : Nat → State → Host.Outcome State Fault Refusal
  | 0, s => .next s
  | n + 1, s =>
    match engineStep s with
    | .next t => engineRun n t
    | .fault f => .fault f
    | .refused r => .refused r

end Sys2Proof.Machine
end

