-- ==== Sys2Proof/Certificates/Slice0/Obligations.lean ====
section
/-! DEFINITION. The statements about the model, for the provers. -/

open Sys2Proof Sys2Proof.Machine

/-! ## Decode and encode -/

/-- Descriptors written out from the spec's encodings (R91, R22; 95_test_vectors.md EV-1 to EV-17)
decode to what they stand for. -/
def Obligations.SpecWordsDecode : Prop :=
  (∀ d, decode ⟨0x20000, d⟩ = .ok .rdId ∧ decode ⟨0x6000C, d⟩ = .ok (.wrStatus d) ∧
    decode ⟨0x20018, d⟩ = .ok .rdWinSize ∧ decode ⟨0x08000, d⟩ = .ok (.rd8Fb 0) ∧
    decode ⟨0x4FFFF, d⟩ = .ok (.wr8Fb 0x7FFF d) ∧ decode ⟨0x1FFFE, d⟩ = .ok (.rd16Fb 0x7FFE) ∧
    decode ⟨0x2FFFC, d⟩ = .ok (.rd32Fb 0x7FFC)) ∧
  decode ⟨0x60008, 0x80000001⟩ = .ok (.wrCtrl 0x80000001) ∧
  (∀ d, decode ⟨0x2001C, d⟩ = .error .unmapped ∧ decode ⟨0x0000C, d⟩ = .error .registerSize ∧
    decode ⟨0x2000E, d⟩ = .error .misalignedRegister ∧ decode ⟨0x7FFFF, d⟩ = .error .reservedSize ∧
    decode ⟨0x6FFFE, d⟩ = .error .misalignedFrame)

/-- Every well-formed instruction, with every value of every operand, is what its encoding decodes to. -/
def Obligations.DecodeOfEncode : Prop :=
  ∀ i : Instr, i.wellFormed = true → decode (encode i) = .ok i

/-- A transaction that decodes is its instruction's encoding, up to the write data a read ignores. -/
def Obligations.EncodeOfDecode : Prop :=
  ∀ (t : Txn) (i : Instr), decode t = .ok i →
    i.wellFormed = true ∧ (encode i).td = t.td ∧ (i.isWrite = true → (encode i).wdata = t.wdata)

/-- R91 and R93: the decoder and the match and mask rows of the opcode table agree, and at most one row
matches a descriptor. -/
def Obligations.DecodeAgreesWithOpcodeTable : Prop :=
  (∀ (t : Txn), ∀ r ∈ opcodeRows,
    r.matches t.td = true ↔ ∃ i, decode t = .ok i ∧ i.mnemonic = r.mnemonic) ∧
  (∀ (t : Txn) (i : Instr), decode t = .ok i →
    ∃ r ∈ opcodeRows, r.mnemonic = i.mnemonic ∧ r.matches t.td = true) ∧
  (∀ (td : TD), ∀ r ∈ opcodeRows, ∀ r' ∈ opcodeRows,
    r.matches td = true → r'.matches td = true → r = r')

/-- R99 with R165, R198 and R199: the illegal descriptors are the listed ones, whatever `wdata` is; each
one, whether or not BUSY is 1, responds ERR with `rdata = 0` and changes nothing of the block. The host's
turn is one laid down, or, with none laid down, any in which the engine has no step, when the host is the
only agent that can move (R14). -/
def Obligations.IllegalTransactions : Prop :=
  (∀ t : Txn, (∃ e, decode t = .error e) ↔
    (tdSize t.td = 0b11#2 ∨
     ((tdAddr t.td).getLsbD 15 = false ∧ tdSize t.td ≠ 0b10#2) ∨
     ((tdAddr t.td).getLsbD 15 = false ∧ (tdAddr t.td).toNat % 4 ≠ 0) ∨
     (0x1C ≤ (tdAddr t.td).toNat ∧ (tdAddr t.td).toNat ≤ 0x7FFC) ∨
     ((tdAddr t.td).getLsbD 15 = true ∧ tdSize t.td = 0b01#2 ∧ (tdAddr t.td).toNat % 2 ≠ 0) ∨
     ((tdAddr t.td).getLsbD 15 = true ∧ tdSize t.td = 0b10#2 ∧ (tdAddr t.td).toNat % 4 ≠ 0))) ∧
  (∀ (s : State) (t : Txn) (q : List Txn) (ts : List Turn) (e : DecodeError),
    s.rstN = true →
    (s.turns = .host :: ts ∨ (s.turns = [] ∧ ts = [] ∧ engineEnabled s = false)) →
    s.hostQueue = t :: q → decode t = .error e →
    step s = .next { s with turns := ts, hostQueue := q, response := some ⟨true, 0⟩ })

/-- R96 with R61: an offset is its pixel's and channel's, and `FB(x, y, c)` names exactly that pixel and
channel. -/
def Obligations.FrameAddressNamesPixelAndChannel : Prop :=
  (∀ off : FbOff,
    off.toNat = 4 * ((offY off).toNat * 128 + (offX off).toNat) + (offChannel off).toNat) ∧
  (∀ x y c : Nat, x < 128 → y < 64 → c < 4 →
    let a := fbChannelSymbol x y c
    inAperture a = true ∧ (offX (fbOffOf a)).toNat = x ∧ (offY (fbOffOf a)).toNat = y ∧
      (offChannel (fbOffOf a)).toNat = c)

/-- R102: the pseudo-instructions expand to transactions of the rows they stand for; `n` is how many reads
the host's `WAITIDLE` loop makes. -/
def Obligations.PseudoInstructionsExpand : Prop :=
  (asmStart.map decode = [.ok (.wrCtrl 1)]) ∧
  (∀ x0 y0 w h : Word, (asmSetWin x0 y0 w h).map decode =
    [.ok (.wrWinOrg (y0 <<< 16 ||| x0)), .ok (.wrWinSize (h <<< 16 ||| w))]) ∧
  (∀ m : Word, (asmClrStat m).map decode = [.ok (.wrStatus m)]) ∧
  (asmClrAll.map decode = [.ok (.wrStatus 0x1E)]) ∧
  (∀ m : Word, (asmIrqOn m).map decode = [.ok (.wrIrqEn m)]) ∧
  (∀ n : Nat, (asmWaitIdle n).map decode = List.replicate n (.ok .rdStatus)) ∧
  (∀ (x0 y0 w h : Word) (n : Nat), (asmDither x0 y0 w h n).map decode =
    [.ok (.wrWinOrg (y0 <<< 16 ||| x0)), .ok (.wrWinSize (h <<< 16 ||| w)), .ok (.wrCtrl 1)] ++
      List.replicate n (.ok .rdStatus)) ∧
  (∀ (x y : Nat) (r g b a : Byte), x < 128 → y < 64 →
    ∃ off : FbOff, off.toNat = 4 * (y * 128 + x) ∧
      (asmRdPix x y).map decode = [.ok (.rd32Fb off)] ∧
      (asmWrPix x y r g b a).map decode = [.ok (.wr32Fb off ((a ++ b ++ g ++ r).setWidth 32))])

/-! ## Steps -/

/-- R63: the host's turn performs the row of the transaction presented, as one step of `exec`; the engine's
turn is one engine step. With no turn laid down it is the engine's turn while it has a step enabled, else
the host's (log entry 1: the model's choice). -/
def Obligations.StepPerformsTheTurn : Prop :=
  ∀ s : State,
    (∀ (t : Txn) (q : List Txn) (i : Instr), s.rstN = true → s.hostQueue = t :: q → decode t = .ok i →
      (∀ ts, s.turns = .host :: ts → step s = exec i { s with turns := ts, hostQueue := q }) ∧
      (s.turns = [] → engineEnabled s = false → step s = exec i { s with hostQueue := q })) ∧
    (∀ ts, s.turns = .engine :: ts → step s = engineStep { s with turns := ts }) ∧
    (s.turns = [] → engineEnabled s = true → step s = engineStep s)

/-- R240: reset may be asserted between any two steps; while `rst_n = 0` no transaction is answered and no
engine step is taken; when it returns to 1 the block is at its reset values. The model's choices in it, no
rule of the spec: the values are taken at the assertion and held (log entry 7), a transaction presented
while `rst_n = 0` stays queued (log entry 6), the host's queue and the turns survive reset (log entry 16),
no response and no `GW` entry is left after it (log entries 5 and 3). -/
def Obligations.ResetPin : Prop :=
  ∀ (s : State) (ts : List Turn),
    (s.turns = .assertReset :: ts →
      step s = .next { State.reset with rstN := false, hostQueue := s.hostQueue, turns := ts }) ∧
    (s.rstN = false → s.turns = .host :: ts → step s = .next { s with turns := ts }) ∧
    (s.rstN = false → s.turns = .engine :: ts → step s = .next { s with turns := ts }) ∧
    (s.rstN = false → s.turns = .releaseReset :: ts →
      step s = .next { State.reset with hostQueue := s.hostQueue, turns := ts })

/-- R241: what the host reads after reset, the hidden state, `irq`, and that no byte of frame memory
holds a defined value. -/
def Obligations.ResetValues : Prop :=
  let s := State.reset
  exec .rdId s = .next { s with response := some ⟨false, 0x44495448⟩ } ∧
  exec .rdGeom s = .next { s with response := some ⟨false, 0x00400080⟩ } ∧
  exec .rdCtrl s = .next { s with response := some ⟨false, 0⟩ } ∧
  exec .rdStatus s = .next { s with response := some ⟨false, 0⟩ } ∧
  exec .rdIrqEn s = .next { s with response := some ⟨false, 0⟩ } ∧
  exec .rdWinOrg s = .next { s with response := some ⟨false, 0⟩ } ∧
  exec .rdWinSize s = .next { s with response := some ⟨false, 0x00400080⟩ } ∧
  s.phase = .idle ∧ s.cx = 0 ∧ s.cy = 0 ∧ s.latch = ⟨0, 0, 0, 0⟩ ∧ s.irq = false ∧
  ∀ a, readByte s.fb a = none

/-- R242 and R243: reset from any state, an operation running or not, ends at the reset values with no
defined byte of frame memory and DONE clear, and a second reset changes nothing more. The model's choices in
it, no rule of the spec: the response is none after reset (log entry 5), `GW` is emptied (log entry 3), the
values are those of the assertion (log entry 7), the host's queue and the turns survive (log entry 16). -/
def Obligations.ResetEndsOperation : Prop :=
  ∀ (s : State) (ts : List Turn),
    (s.turns = .assertReset :: .releaseReset :: ts →
      Sys2Proof.core.run 2 s = .next { State.reset with hostQueue := s.hostQueue, turns := ts }) ∧
    (s.turns = .assertReset :: .releaseReset :: .assertReset :: .releaseReset :: ts →
      Sys2Proof.core.run 4 s = .next { State.reset with hostQueue := s.hostQueue, turns := ts })

/-- R14, R71, R227 and R253: the engine has no step while BUSY = 0, and an idle block with nothing presented
keeps its state, so a final state is one a run stays in (with no turn laid down: log entry 1). -/
def Obligations.IdleBlockKeepsItsState : Prop :=
  ∀ s : State,
    (s.status.busy = false → engineEnabled s = false ∧ engineStep s = .next s) ∧
    (s.turns = [] → s.hostQueue = [] → s.status.busy = false → step s = .next s) ∧
    (s.turns = [] → s.final = true → step s = .next s)

/-! ## Register transactions -/

/-- R151, R153, R155: the constant registers read as the spec's constants in every state, and the read
leaves everything else as it was. -/
def Obligations.ConstantRegisterReads : Prop :=
  (∀ d, decode ⟨0x20000, d⟩ = .ok .rdId ∧ decode ⟨0x20004, d⟩ = .ok .rdGeom ∧
    decode ⟨0x20008, d⟩ = .ok .rdCtrl) ∧
  ∀ s : State,
    exec .rdId s = .next { s with response := some ⟨false, 0x44495448⟩ } ∧
    exec .rdGeom s = .next { s with response := some ⟨false, 0x00400080⟩ } ∧
    exec .rdCtrl s = .next { s with response := some ⟨false, 0⟩ }

/-- R152, R154: a write of a read-only register responds OK and has no effect; a read that follows still
returns the constant. -/
def Obligations.ReadOnlyRegisterWrites : Prop :=
  ∀ (s : State) (d : Word),
    decode ⟨0x60000, d⟩ = .ok (.wrId d) ∧ decode ⟨0x60004, d⟩ = .ok (.wrGeom d) ∧
    exec (.wrId d) s = .next { s with response := some ⟨false, 0⟩ } ∧
    exec (.wrGeom d) s = .next { s with response := some ⟨false, 0⟩ } ∧
    (∀ t, exec (.wrId d) s = .next t →
      exec .rdId t = .next { s with response := some ⟨false, 0x44495448⟩ }) ∧
    (∀ t, exec (.wrGeom d) s = .next t →
      exec .rdGeom t = .next { s with response := some ⟨false, 0x00400080⟩ })

/-- R157, R159: the STATUS and IRQ_EN words, bit by bit; the read changes nothing but the response. Polled
while BUSY, STATUS may be read any finite number of times before the engine moves. -/
def Obligations.StatusAndIrqEnReads : Prop :=
  (∀ d, decode ⟨0x2000C, d⟩ = .ok .rdStatus ∧ decode ⟨0x20010, d⟩ = .ok .rdIrqEn) ∧
  (∀ (s : State) (n : Nat), s.rstN = true → s.status.busy = true →
    s.turns = List.replicate (n + 1) .host → s.hostQueue = asmWaitIdle (n + 1) →
    Sys2Proof.core.run (n + 1) s = .next { s with
      turns := [], hostQueue := [], response := some ⟨false, s.status.word⟩ }) ∧
  ∀ s : State,
    (∃ v : Word, exec .rdStatus s = .next { s with response := some ⟨false, v⟩ } ∧
      v.getLsbD 0 = s.status.busy ∧ v.getLsbD 1 = s.status.done ∧ v.getLsbD 2 = s.status.cfgErr ∧
      v.getLsbD 3 = s.status.ovrErr ∧ v.getLsbD 4 = s.status.accErr ∧
      ∀ k, 5 ≤ k → v.getLsbD k = false) ∧
    (∃ v : Word, exec .rdIrqEn s = .next { s with response := some ⟨false, v⟩ } ∧
      v.getLsbD 0 = false ∧ v.getLsbD 1 = s.irqEn.doneIe ∧ v.getLsbD 2 = s.irqEn.cfgErrIe ∧
      v.getLsbD 3 = s.irqEn.ovrErrIe ∧ v.getLsbD 4 = s.irqEn.accErrIe ∧
      ∀ k, 5 ≤ k → v.getLsbD k = false)

/-- R161, R163: the window words, field by field, 0 in every reserved bit; the programmed values, whatever
the latch holds. -/
def Obligations.WindowReads : Prop :=
  (∀ d, decode ⟨0x20014, d⟩ = .ok .rdWinOrg ∧ decode ⟨0x20018, d⟩ = .ok .rdWinSize) ∧
  ∀ s : State,
    (∃ v : Word, exec .rdWinOrg s = .next { s with response := some ⟨false, v⟩ } ∧
      v.toNat = s.winOrg.y0.toNat * 2 ^ 16 + s.winOrg.x0.toNat) ∧
    (∃ v : Word, exec .rdWinSize s = .next { s with response := some ⟨false, v⟩ } ∧
      v.toNat = s.winSize.h.toNat * 2 ^ 16 + s.winSize.w.toNat)

/-- R158: write-1-to-clear of the four sticky bits; BUSY, every enable and everything else stay. -/
def Obligations.StatusWriteClears : Prop :=
  ∀ (s : State) (d : Word),
    decode ⟨0x6000C, d⟩ = .ok (.wrStatus d) ∧
    exec (.wrStatus d) s = .next { s with
      status := ⟨s.status.busy, s.status.done && !d.getLsbD 1, s.status.cfgErr && !d.getLsbD 2,
        s.status.ovrErr && !d.getLsbD 3, s.status.accErr && !d.getLsbD 4⟩
      response := some ⟨false, 0⟩ }

/-- R160, R159: IRQ_EN takes bits 4:1 of the data and drops the rest, and reads back so. -/
def Obligations.IrqEnWrite : Prop :=
  ∀ (s : State) (d : Word), decode ⟨0x60010, d⟩ = .ok (.wrIrqEn d) ∧ ∃ t,
    exec (.wrIrqEn d) s = .next t ∧
    t = { s with
      irqEn := ⟨d.getLsbD 1, d.getLsbD 2, d.getLsbD 3, d.getLsbD 4⟩, response := some ⟨false, 0⟩ } ∧
    exec .rdIrqEn t = .next { t with response := some ⟨false, d &&& 0x1E⟩ }

/-- R162, R164: the window registers take their fields of the data, masked and never rejected, and read
back so; nothing else changes, the latch in particular. -/
def Obligations.WindowWrites : Prop :=
  ∀ (s : State) (d : Word),
    decode ⟨0x60014, d⟩ = .ok (.wrWinOrg d) ∧ decode ⟨0x60018, d⟩ = .ok (.wrWinSize d) ∧
    (∃ t, exec (.wrWinOrg d) s = .next t ∧
      t = { s with winOrg := t.winOrg, response := some ⟨false, 0⟩ } ∧
      t.winOrg.x0.toNat = d.toNat % 128 ∧ t.winOrg.y0.toNat = d.toNat / 2 ^ 16 % 64 ∧
      exec .rdWinOrg t = .next { t with response := some ⟨false, d &&& 0x003F007F⟩ }) ∧
    (∃ t, exec (.wrWinSize d) s = .next t ∧
      t = { s with winSize := t.winSize, response := some ⟨false, 0⟩ } ∧
      t.winSize.w.toNat = d.toNat % 256 ∧ t.winSize.h.toNat = d.toNat / 2 ^ 16 % 128 ∧
      exec .rdWinSize t = .next { t with response := some ⟨false, d &&& 0x007F00FF⟩ })

/-- R156, with R127 and R128: each outcome of a CTRL write, and that nothing else changes in it. -/
def Obligations.CtrlWriteOutcomes : Prop :=
  ∀ (s : State) (d : Word),
    let fits := s.winOrg.x0.toNat + s.winSize.w.toNat ≤ 128 ∧ s.winOrg.y0.toNat + s.winSize.h.toNat ≤ 64
    let empty := s.winSize.w = 0 ∨ s.winSize.h = 0
    let window : Latch := ⟨s.winOrg.x0, s.winOrg.y0, s.winSize.w, s.winSize.h⟩
    decode ⟨0x60008, d⟩ = .ok (.wrCtrl d) ∧
    (d.getLsbD 0 = false → exec (.wrCtrl d) s = .next { s with response := some ⟨false, 0⟩ }) ∧
    (d.getLsbD 0 = true → s.status.busy = true → exec (.wrCtrl d) s = .next { s with
      status := { s.status with ovrErr := true }, response := some ⟨false, 0⟩ }) ∧
    (d.getLsbD 0 = true → s.status.busy = false → ¬fits → exec (.wrCtrl d) s = .next { s with
      status := { s.status with cfgErr := true }, response := some ⟨false, 0⟩ }) ∧
    (d.getLsbD 0 = true → s.status.busy = false → fits → empty → exec (.wrCtrl d) s = .next { s with
      status := { s.status with done := true }, latch := window, response := some ⟨false, 0⟩ }) ∧
    (d.getLsbD 0 = true → s.status.busy = false → fits → ¬empty → exec (.wrCtrl d) s = .next { s with
      status := { s.status with busy := true }, latch := window, phase := .luma, cx := 0, cy := 0,
      response := some ⟨false, 0⟩ })

/-- R217: one START sets at most one of OVR_ERR, CFG_ERR and DONE, and clears none of them, nor
ACC_ERR. -/
def Obligations.StartReportsOneOutcome : Prop :=
  ∀ (s t : State) (d : Word), exec (.wrCtrl d) s = .next t →
    [t.status.ovrErr != s.status.ovrErr, t.status.cfgErr != s.status.cfgErr,
      t.status.done != s.status.done].count true ≤ 1 ∧
    (s.status.ovrErr = true → t.status.ovrErr = true) ∧
    (s.status.cfgErr = true → t.status.cfgErr = true) ∧
    (s.status.done = true → t.status.done = true) ∧ t.status.accErr = s.status.accErr

/-- R150: every register transaction responds OK in every state, BUSY or not; a write returns 0. Frame
memory and the working array are untouched. -/
def Obligations.RegisterTransactionsAnswerOk : Prop :=
  ∀ (i : Instr) (s : State), inAperture i.addr = false →
    ∃ (t : State) (v : Word), exec i s = .next t ∧ t.response = some ⟨false, v⟩ ∧
      (i.isWrite = true → v = 0) ∧ t.gw = s.gw ∧ t.rstN = s.rstN ∧ t.hostQueue = s.hostQueue ∧
      t.turns = s.turns ∧ ∀ a, readByte t.fb a = readByte s.fb a

/-- R66: a read changes nothing but the response, unless it is a frame read refused while BUSY = 1, which
sets ACC_ERR too. -/
def Obligations.ReadsHaveNoOtherSideEffect : Prop :=
  ∀ (i : Instr) (s t : State), i.isWrite = false → exec i s = .next t →
    t = { s with
      response := t.response
      status := { s.status with
        accErr := s.status.accErr || (inAperture i.addr && s.status.busy) } }

/-- R67: repeating any transaction but a CTRL write leaves the same state as performing it once. -/
def Obligations.RepeatedTransactionsIdempotent : Prop :=
  ∀ (i : Instr) (s t : State), Memory.wf s.fb → (∀ d, i ≠ .wrCtrl d) →
    exec i s = .next t → exec i t = .next t

/-- R90: a response of ERR, and the response of a write, carry `rdata = 0`; every transaction performed
leaves a response. -/
def Obligations.ErrAndWriteResponsesCarryZero : Prop :=
  ∀ (i : Instr) (s t : State), exec i s = .next t →
    ∃ r, t.response = some r ∧ (r.err = true ∨ i.isWrite = true → r.rdata = 0)

/-! ## Frame-memory transactions -/

/-- R191 to R193: with BUSY = 0 and its bytes written, a frame read returns them little-endian and
zero-extended and changes nothing but the response; with BUSY = 1 it is refused (R197). -/
def Obligations.FrameReads : Prop :=
  ∀ (s : State) (off : FbOff),
    (∀ d, decode ⟨0x08000 ||| off.setWidth 19, d⟩ = .ok (.rd8Fb off) ∧
      (off.toNat % 2 = 0 → decode ⟨0x18000 ||| off.setWidth 19, d⟩ = .ok (.rd16Fb off)) ∧
      (off.toNat % 4 = 0 → decode ⟨0x28000 ||| off.setWidth 19, d⟩ = .ok (.rd32Fb off))) ∧
    (s.status.busy = false → ∀ b0, readByte s.fb off.toNat = some b0 →
      exec (.rd8Fb off) s = .next { s with response := some ⟨false, b0.setWidth 32⟩ } ∧
      ∀ b1, readByte s.fb (off.toNat + 1) = some b1 →
        exec (.rd16Fb off) s = .next { s with response := some ⟨false, (b1 ++ b0).setWidth 32⟩ } ∧
        ∀ b2 b3, readByte s.fb (off.toNat + 2) = some b2 → readByte s.fb (off.toNat + 3) = some b3 →
          exec (.rd32Fb off) s =
            .next { s with response := some ⟨false, (b3 ++ b2 ++ b1 ++ b0).setWidth 32⟩ }) ∧
    (s.status.busy = true → ∀ i ∈ [Instr.rd8Fb off, .rd16Fb off, .rd32Fb off],
      exec i s = .next { s with
        status := { s.status with accErr := true }, response := some ⟨true, 0⟩ })

/-- R190 and U5: with BUSY = 0, a frame read of a byte not written since reset is the fault the spec asks a
model to record, and no other frame read faults. -/
def Obligations.UnwrittenFrameReadFaults : Prop :=
  ∀ (s : State) (off : FbOff), s.status.busy = false →
    ∀ p ∈ [(Instr.rd8Fb off, 1), (.rd16Fb off, 2), (.rd32Fb off, 4)],
      exec p.1 s = .fault .unwrittenHostRead ↔ ∃ k < p.2, readByte s.fb (off.toNat + k) = none

/-- R194 to R196: with BUSY = 0 a frame write stores the low bytes of its data little-endian, leaves every
other byte and all other state as it was, and responds OK; with BUSY = 1 it is refused (R197). -/
def Obligations.FrameWrites : Prop :=
  ∀ (s : State) (off : FbOff) (d : Word),
    decode ⟨0x48000 ||| off.setWidth 19, d⟩ = .ok (.wr8Fb off d) ∧
    (off.toNat % 2 = 0 → decode ⟨0x58000 ||| off.setWidth 19, d⟩ = .ok (.wr16Fb off d)) ∧
    (off.toNat % 4 = 0 → decode ⟨0x68000 ||| off.setWidth 19, d⟩ = .ok (.wr32Fb off d)) ∧
    ∀ p ∈ [(Instr.wr8Fb off d, 1), (.wr16Fb off d, 2), (.wr32Fb off d, 4)],
      (s.status.busy = false → ∃ t, exec p.1 s = .next t ∧
        t = { s with fb := t.fb, response := some ⟨false, 0⟩ } ∧
        (∀ k < p.2, readByte t.fb (off.toNat + k) = some (d.extractLsb' (8 * k) 8)) ∧
        ∀ a, a < off.toNat ∨ off.toNat + p.2 ≤ a → readByte t.fb a = readByte s.fb a) ∧
      (s.status.busy = true → exec p.1 s = .next { s with
        status := { s.status with accErr := true }, response := some ⟨true, 0⟩ })

/-- R197: every row of the frame region is refused while BUSY = 1, with ERR and ACC_ERR and no other
change. -/
def Obligations.FrameAccessRefusedWhileBusy : Prop :=
  ∀ (i : Instr) (s : State), inAperture i.addr = true → s.status.busy = true →
    exec i s = .next { s with
      status := { s.status with accErr := true }, response := some ⟨true, 0⟩ }

/-- R62: what `WR32` writes at an aligned offset, each narrower read sees part of, byte `n` in bits
`8n+7:8n`. -/
def Obligations.MixedWidthReadsSeeTheSameBytes : Prop :=
  ∀ (s t : State) (off : FbOff) (d : Word), s.status.busy = false → aligned4 off = true →
    exec (.wr32Fb off d) s = .next t →
    exec (.rd32Fb off) t = .next { t with response := some ⟨false, d⟩ } ∧
    (∀ n : BitVec 15, n.toNat = 0 ∨ n.toNat = 2 →
      exec (.rd16Fb (off + n)) t =
        .next { t with response := some ⟨false, (d.extractLsb' (8 * n.toNat) 16).setWidth 32⟩ }) ∧
    (∀ n : BitVec 15, n.toNat < 4 →
      exec (.rd8Fb (off + n)) t =
        .next { t with response := some ⟨false, (d.extractLsb' (8 * n.toNat) 8).setWidth 32⟩ })

/-- R97: a narrow write ignores the bits of `wdata` above its width. -/
def Obligations.NarrowWritesIgnoreUpperData : Prop :=
  ∀ (s : State) (off : FbOff) (d d' : Word),
    (d.extractLsb' 0 8 = d'.extractLsb' 0 8 → exec (.wr8Fb off d) s = exec (.wr8Fb off d') s) ∧
    (d.extractLsb' 0 16 = d'.extractLsb' 0 16 → exec (.wr16Fb off d) s = exec (.wr16Fb off d') s)

/-! ## STATUS, IRQ_EN and irq -/

/-- R41 with R32, R22 and R214: `irq` is high exactly where an enabled cause is pending, which is where the
STATUS and IRQ_EN words share a set bit, so BUSY is no cause. Clearing every pending bit, or disabling every
enable, lowers it; disabling leaves the bits pending. It is low after reset. -/
def Obligations.IrqLevel : Prop :=
  State.reset.irq = false ∧
  ∀ s : State,
    (s.irq = true ↔
      (s.status.done = true ∧ s.irqEn.doneIe = true) ∨ (s.status.cfgErr = true ∧ s.irqEn.cfgErrIe = true) ∨
      (s.status.ovrErr = true ∧ s.irqEn.ovrErrIe = true) ∨
      (s.status.accErr = true ∧ s.irqEn.accErrIe = true)) ∧
    (s.irq = true ↔ s.status.word &&& s.irqEn.word ≠ 0) ∧
    (∀ t, exec (.wrStatus 0x1E) s = .next t → t.irq = false ∧ t.irqEn = s.irqEn) ∧
    (∀ t, exec (.wrIrqEn 0) s = .next t → t.irq = false ∧ t.status = s.status)

/-- R26 to R31, R127, R128 and R210: a sticky bit is cleared by a transaction only as WR_STATUS clears it, and
set only by the event of that bit: DONE by a START with BUSY = 0 of an empty window that fits, CFG_ERR by a
START with BUSY = 0 of a window that does not fit, OVR_ERR by a START with BUSY = 1, ACC_ERR by a frame
access with BUSY = 1. -/
def Obligations.TransactionsChangeStickyBitsOnlyByTheirEvents : Prop :=
  ∀ (i : Instr) (s t : State), exec i s = .next t →
    let fits := s.winOrg.x0.toNat + s.winSize.w.toNat ≤ 128 ∧ s.winOrg.y0.toNat + s.winSize.h.toNat ≤ 64
    (∀ c ∈ [(s.status.done, t.status.done, 1), (s.status.cfgErr, t.status.cfgErr, 2),
        (s.status.ovrErr, t.status.ovrErr, 3), (s.status.accErr, t.status.accErr, 4)],
      c.1 = true → c.2.1 = false → ∃ d, i = .wrStatus d ∧ d.getLsbD c.2.2 = true) ∧
    (s.status.done = false → t.status.done = true →
      ∃ d, i = .wrCtrl d ∧ d.getLsbD 0 = true ∧ s.status.busy = false ∧ fits ∧
        (s.winSize.w = 0 ∨ s.winSize.h = 0)) ∧
    (s.status.cfgErr = false → t.status.cfgErr = true →
      ∃ d, i = .wrCtrl d ∧ d.getLsbD 0 = true ∧ s.status.busy = false ∧ ¬fits) ∧
    (s.status.ovrErr = false → t.status.ovrErr = true →
      ∃ d, i = .wrCtrl d ∧ d.getLsbD 0 = true ∧ s.status.busy = true) ∧
    (s.status.accErr = false → t.status.accErr = true →
      inAperture i.addr = true ∧ s.status.busy = true)

/-- R27, R166 and R242: BUSY falls only by reset or by the engine's completion of the operation. -/
def Obligations.BusyFallsOnlyAtCompletionOrReset : Prop :=
  ∀ s t : State, step s = .next t → s.status.busy = true → t.status.busy = false →
    (takeTurn s).1 = .assertReset ∨ ((takeTurn s).1 = .releaseReset ∧ s.rstN = false) ∨
    ((takeTurn s).1 = .engine ∧ s.phase = .diffuse ∧ s.cy = s.latch.ah.toNat ∧
      t.phase = .idle ∧ t.status.done = true)

/-- R71, R166 and R247: while BUSY = 1 no transaction changes frame memory, the working array, the phase,
the cursor, the latch or BUSY. -/
def Obligations.NoTransactionTouchesARunningOperation : Prop :=
  ∀ (i : Instr) (s t : State), s.status.busy = true → exec i s = .next t →
    t.operation = s.operation

/-! ## The engine -/

/-- R10: `tdiv` rounds toward zero, and is the division Lean calls `Int.tdiv`. -/
def Obligations.TdivRoundsTowardZero : Prop :=
  ∀ a b : Int, 0 < b →
    (0 ≤ a → tdiv a b = a / b) ∧ (a < 0 → tdiv a b = -((-a) / b)) ∧ tdiv a b = a.tdiv b

/-- R111 and R112: a luminance is `30*R + 59*G + 11*B`, from 0 to 25500 and so held in 15 bits, and the
quantiser's threshold is 12700. -/
def Obligations.LuminanceAndThreshold : Prop :=
  (∀ r g b : Byte,
    luminance r g b = 30 * (r.toNat : Int) + 59 * (g.toNat : Int) + 11 * (b.toNat : Int) ∧
      0 ≤ luminance r g b ∧ luminance r g b ≤ 25500 ∧ luminance r g b < 2 ^ 15) ∧
  (∀ w : Int, (w < 12700 → level w = 0 ∧ levelC w = 0) ∧
    (12700 ≤ w → level w = 255 ∧ levelC w = 25500))

/-- R131: each share has the sign of `e` or is 0, together they are no larger than `e`, and the rounding
loses 0 to 3 centi-levels. A share clipped by the window is lost. -/
def Obligations.SharesNeverAmplify : Prop :=
  (∀ (l : Latch) (jj ii x : Int) (gw : GrayArray),
    ¬(0 ≤ jj ∧ jj < l.aw.toNat ∧ ii < l.ah.toNat) → share l jj ii x gw = gw) ∧
  ∀ e : Int,
    (∀ k ∈ [7, 3, 5, 1], (0 ≤ e → 0 ≤ shareOf k e) ∧ (e ≤ 0 → shareOf k e ≤ 0)) ∧
    |shareOf 7 e| + |shareOf 3 e| + |shareOf 5 e| + |shareOf 1 e| ≤ |e| ∧
    |e| - (|shareOf 7 e| + |shareOf 3 e| + |shareOf 5 e| + |shareOf 1 e|) ≤ 3

/-- R118 with R120: `LUMA_STEP` writes the pixel's luminance into `GW[CY][CX]` and advances the cursor;
frame memory, STATUS and every other piece of state stay. -/
def Obligations.LumaStepResult : Prop :=
  ∀ (s : State) (r g b : Byte), s.rstN = true → s.status.busy = true → s.phase = .luma →
    s.cx < 256 →
    let p := 4 * ((s.latch.ay0.toNat + s.cy) * 128 + (s.latch.ax0.toNat + s.cx))
    readByte s.fb p = some r → readByte s.fb (p + 1) = some g → readByte s.fb (p + 2) = some b →
    ∃ t, engineStep s = .next t ∧
      t = { s with gw := t.gw, phase := t.phase, cx := t.cx, cy := t.cy } ∧
      (grayAt t.gw s.cy s.cx).toInt = 30 * (r.toNat : Int) + 59 * (g.toNat : Int) + 11 * (b.toNat : Int) ∧
      (∀ i j, j < 256 → (i ≠ s.cy ∨ j ≠ s.cx) → grayAt t.gw i j = grayAt s.gw i j) ∧
      (s.cx + 1 ≠ s.latch.aw.toNat → s.cy ≠ s.latch.ah.toNat →
        t.phase = .luma ∧ t.cx = s.cx + 1 ∧ t.cy = s.cy) ∧
      (s.cx + 1 = s.latch.aw.toNat → s.cy + 1 ≠ s.latch.ah.toNat →
        t.phase = .luma ∧ t.cx = 0 ∧ t.cy = s.cy + 1) ∧
      (s.cx + 1 = s.latch.aw.toNat → s.cy + 1 = s.latch.ah.toNat →
        t.phase = .diffuse ∧ t.cx = 0 ∧ t.cy = 0)

/-- R249 and U5: a `LUMA_STEP` whose pixel has an R, G or B byte not written since reset is the fault the
spec asks a model to record. -/
def Obligations.UnwrittenLumaReadFaults : Prop :=
  ∀ s : State, s.rstN = true → s.status.busy = true → s.phase = .luma →
    (engineStep s = .fault .unwrittenLumaRead ↔
      ∃ k < 3, readByte s.fb
        (4 * ((s.latch.ay0.toNat + s.cy) * 128 + (s.latch.ax0.toNat + s.cx)) + k) = none)

/-- R119 with R112 to R116, R120 and R123: `VISIT_STEP` on a window pixel, from a state of the range
invariant (R130). It paints R, G and B of its pixel and no other byte, adds the four shares inside the
window and nothing else to the working values of the window, and advances the cursor. -/
def Obligations.VisitStepResult : Prop :=
  ∀ s : State, s.Inv → s.GrayInv → s.rstN = true → s.phase = .diffuse → s.cy < s.latch.ah.toNat →
    let w := (grayAt s.gw s.cy s.cx).toInt
    let v : Byte := if w < 12700 then 0 else 255
    let e := w - (if w < 12700 then 0 else 25500)
    let p := 4 * ((s.latch.ay0.toNat + s.cy) * 128 + (s.latch.ax0.toNat + s.cx))
    ∃ t, engineStep s = .next t ∧
      t = { s with fb := t.fb, gw := t.gw, cx := t.cx, cy := t.cy } ∧
      readByte t.fb p = some v ∧ readByte t.fb (p + 1) = some v ∧ readByte t.fb (p + 2) = some v ∧
      (∀ a, a ≠ p → a ≠ p + 1 → a ≠ p + 2 → readByte t.fb a = readByte s.fb a) ∧
      (∀ i j, j < s.latch.aw.toNat → i < s.latch.ah.toNat →
        (grayAt t.gw i j).toInt = (grayAt s.gw i j).toInt +
          (if i = s.cy ∧ j = s.cx + 1 then (7 * e).tdiv 16
           else if i = s.cy + 1 ∧ j + 1 = s.cx then (3 * e).tdiv 16
           else if i = s.cy + 1 ∧ j = s.cx then (5 * e).tdiv 16
           else if i = s.cy + 1 ∧ j = s.cx + 1 then (1 * e).tdiv 16
           else 0)) ∧
      (s.cx + 1 ≠ s.latch.aw.toNat → t.cx = s.cx + 1 ∧ t.cy = s.cy) ∧
      (s.cx + 1 = s.latch.aw.toNat → t.cx = 0 ∧ t.cy = s.cy + 1)

/-- R121: `COMPLETE_STEP` clears BUSY, sets DONE, goes to IDLE, and changes nothing else. -/
def Obligations.CompleteStepResult : Prop :=
  ∀ s : State, s.rstN = true → s.status.busy = true → s.phase = .diffuse → s.cy = s.latch.ah.toNat →
    engineStep s = .next { s with
      phase := .idle, status := { s.status with busy := false, done := true } }

/-- R40 and R247: an engine step reads the latch, never the window registers, nor the enables, the host's
queue or the last response; with other values there it does the same. -/
def Obligations.EngineReadsOnlyTheLatch : Prop :=
  ∀ (s : State) (o : WinOrg) (z : WinSize) (e : IrqEn) (r : Option Response) (q : List Txn)
    (ts : List Turn),
    let put (u : State) : State :=
      { u with winOrg := o, winSize := z, irqEn := e, response := r, hostQueue := q, turns := ts }
    (∀ t, engineStep s = .next t → engineStep (put s) = .next (put t)) ∧
    (∀ f, engineStep s = .fault f → engineStep (put s) = .fault f)

/-! ## Invariants -/

/-- The invariant holds after reset. -/
def Obligations.InvAtReset : Prop := State.reset.Inv ∧ State.reset.GrayInv

/-- Every step keeps the invariant: BUSY and PHASE agree (R38), frame memory and `GW` keep their form, the
latched window fits (R127), the cursor stays on the window (R39, R120), the working values a later step
reads are written (R37). That the block is at its reset values while `rst_n = 0` (`heldInReset`) is the
model's choice (log entry 7): R240 gives the values only after release. -/
def Obligations.StepKeepsInv : Prop :=
  ∀ s t : State, s.Inv → step s = .next t → t.Inv

/-- R38: every step keeps `BUSY = 1` if and only if `PHASE != IDLE`, on its own. -/
def Obligations.StepKeepsBusyIffActive : Prop :=
  ∀ s t : State, (s.status.busy = true ↔ s.phase ≠ .idle) → step s = .next t →
    (t.status.busy = true ↔ t.phase ≠ .idle)

/-- R130: every step keeps the range bound of the working values. -/
def Obligations.StepKeepsGrayRange : Prop :=
  ∀ s t : State, s.Inv → s.GrayInv → step s = .next t → t.GrayInv

/-- R130: under the invariants, the error of a visit is at most 12800 and its products fit 18 signed bits. -/
def Obligations.VisitErrorBound : Prop :=
  ∀ s : State, s.Inv → s.GrayInv → s.phase = .diffuse → s.cy < s.latch.ah.toNat →
    let e := quantError (grayAt s.gw s.cy s.cx).toInt
    |e| ≤ 12800 ∧ ∀ k ∈ [7, 3, 5, 1], |k * e| ≤ 89600 ∧ |k * e| < 2 ^ 17

/-! ## The whole operation -/

/-- R120: from the start of an operation whose colour bytes are written, the luminance pass takes exactly
`AW*AH` steps and then the diffusion pass exactly `AW*AH` visits. -/
def Obligations.PassLengths : Prop :=
  ∀ s : State, s.Inv → s.rstN = true → s.phase = .luma → s.cx = 0 → s.cy = 0 →
    (ditherRef s.fb s.latch).isSome = true →
    ∀ n : Nat, ∃ t, engineRun n s = .next t ∧
      (n < s.latch.aw.toNat * s.latch.ah.toNat →
        t.phase = .luma ∧ t.cy * s.latch.aw.toNat + t.cx = n) ∧
      (s.latch.aw.toNat * s.latch.ah.toNat ≤ n → n ≤ 2 * (s.latch.aw.toNat * s.latch.ah.toNat) →
        t.phase = .diffuse ∧
          s.latch.aw.toNat * s.latch.ah.toNat + (t.cy * s.latch.aw.toNat + t.cx) = n)

/-- R129 and R130: the engine's steps, on 18-bit working values, compute the reference function on
unbounded integers, and end in COMPLETE_STEP. Where the reference meets a byte not written since reset it
answers none, which is the model's choice (log entry 15), and the engine faults, as U5 asks of a model (log
entry 4). -/
def Obligations.EngineComputesDitherRef : Prop :=
  ∀ s : State, s.Inv → s.rstN = true → s.phase = .luma → s.cx = 0 → s.cy = 0 →
    let n := 2 * (s.latch.aw.toNat * s.latch.ah.toNat) + 1
    (∀ m, ditherRef s.fb s.latch = some m →
      ∃ t, engineRun n s = .next t ∧
        t = { s with
          fb := m, gw := t.gw, phase := .idle, cx := 0, cy := s.latch.ah.toNat
          status := { s.status with busy := false, done := true } }) ∧
    (ditherRef s.fb s.latch = none → engineRun n s = .fault .unwrittenLumaRead)

/-- R110, R127 and R156: from a START that is accepted, with no turn laid down (log entry 1, which
meets `ENGINE_FAIR`), the block's own steps dither the window of frame memory in place and report it, whatever else the host has queued. -/
def Obligations.AcceptedStartDithersTheWindow : Prop :=
  ∀ (s : State) (t : Txn) (q : List Txn) (d : Word) (m : Memory),
    s.Inv → s.rstN = true → s.turns = [] → s.hostQueue = t :: q → decode t = .ok (.wrCtrl d) →
    d.getLsbD 0 = true → s.status.busy = false →
    s.winOrg.x0.toNat + s.winSize.w.toNat ≤ 128 → s.winOrg.y0.toNat + s.winSize.h.toNat ≤ 64 →
    0 < s.winSize.w.toNat → 0 < s.winSize.h.toNat →
    ditherRef s.fb ⟨s.winOrg.x0, s.winOrg.y0, s.winSize.w, s.winSize.h⟩ = some m →
    ∃ u, Sys2Proof.core.run (1 + (2 * (s.winSize.w.toNat * s.winSize.h.toNat) + 1)) s = .next u ∧
      u.fb = m ∧ u.status = { s.status with busy := false, done := true } ∧ u.phase = .idle ∧
      u.irqEn = s.irqEn ∧ u.winOrg = s.winOrg ∧ u.winSize = s.winSize ∧ u.hostQueue = q ∧
      u.response = some ⟨false, 0⟩

/-- R8, R251: out of any state of the invariant with an operation running, the engine's own turns end it,
in DONE or in a fault, within `2*128*64 + 1` steps. That the engine gets its turns is the assumption
`ENGINE_FAIR`. -/
def Obligations.OperationEnds : Prop :=
  ∀ s : State, s.Inv → s.rstN = true → s.status.busy = true →
    ∃ n, n ≤ 2 * (128 * 64) + 1 ∧
      ((∃ t, engineRun n s = .next t ∧ t.status.busy = false ∧ t.status.done = true) ∨
        engineRun n s = .fault .unwrittenLumaRead)

/-- R126 and R117: after the operation every window pixel has `R = G = B`, each 0 or 255, and its A byte is
what it was. -/
def Obligations.DitheredWindowIsBinary : Prop :=
  ∀ (m m' : Memory) (l : Latch), l.fits → ditherRef m l = some m' →
    ∀ j i, j < l.aw.toNat → i < l.ah.toNat →
      let p := 4 * ((l.ay0.toNat + i) * 128 + (l.ax0.toNat + j))
      ∃ v : Byte, (v = 0 ∨ v = 255) ∧ readByte m' p = some v ∧ readByte m' (p + 1) = some v ∧
        readByte m' (p + 2) = some v ∧ readByte m' (p + 3) = readByte m (p + 3)

/-- R116: the operation writes no byte but R, G and B of the window's pixels. -/
def Obligations.OnlyWindowColoursChange : Prop :=
  ∀ (m m' : Memory) (l : Latch), ditherRef m l = some m' →
    ∀ a, (¬∃ j i c, j < l.aw.toNat ∧ i < l.ah.toNat ∧ c < 3 ∧
        a = 4 * ((l.ay0.toNat + i) * 128 + (l.ax0.toNat + j)) + c) →
      readByte m' a = readByte m a

/-- R125: the frame memory an operation leaves depends on frame memory and the latched window at its start
alone: two blocks that agree on those, whatever else differs, stay equal in frame memory step by step. -/
def Obligations.OperationIsDeterministic : Prop :=
  ∀ (s s' : State), s.Inv → s'.Inv → s.rstN = true → s'.rstN = true →
    s.phase = .luma → s'.phase = .luma → s.cx = 0 → s.cy = 0 → s'.cx = 0 → s'.cy = 0 →
    s.fb = s'.fb → s.latch = s'.latch →
    ∀ n t, engineRun n s = .next t →
      ∃ t', engineRun n s' = .next t' ∧ t'.fb = t.fb ∧ t'.phase = t.phase

/-- R132 (and program P5 of 95_test_vectors.md): a window that is black and white already is left as it is:
every visit has `e = 0`. -/
def Obligations.BinaryWindowIsFixedPoint : Prop :=
  ∀ (m : Memory) (l : Latch), Memory.wf m → l.fits →
    (∀ j i, j < l.aw.toNat → i < l.ah.toNat → ∃ v : Byte, (v = 0 ∨ v = 255) ∧
      ∀ c < 3, readByte m (4 * ((l.ay0.toNat + i) * 128 + (l.ax0.toNat + j)) + c) = some v) →
    ditherRef m l = some m

/-- R249: the output of window pixel `(j, i)` depends on no colour byte but those of the window pixels
`(j', i')` with `i' <= i` and `j' <= j + (i - i')`. -/
def Obligations.DependencyReach : Prop :=
  ∀ (m n m' n' : Memory) (l : Latch) (j i : Nat), l.fits → j < l.aw.toNat → i < l.ah.toNat →
    (∀ j' i' c, j' < l.aw.toNat → i' ≤ i → j' ≤ j + (i - i') → c < 3 →
      readByte m (4 * ((l.ay0.toNat + i') * 128 + (l.ax0.toNat + j')) + c) =
        readByte n (4 * ((l.ay0.toNat + i') * 128 + (l.ax0.toNat + j')) + c)) →
    ditherRef m l = some m' → ditherRef n l = some n' →
    ∀ c < 3, readByte m' (4 * ((l.ay0.toNat + i) * 128 + (l.ax0.toNat + j)) + c) =
      readByte n' (4 * ((l.ay0.toNat + i) * 128 + (l.ax0.toNat + j)) + c)

/-- R69, R71 and R122: whatever the host does while an operation runs, the operation goes as the engine's
own turns take it: after any number of steps during which BUSY was 1 and reset was not asserted, the
operation's state is that of some number of engine turns alone. -/
def Obligations.HostCannotDisturbAnOperation : Prop :=
  ∀ (s : State) (n : Nat) (t : State), s.Inv → s.rstN = true → Turn.assertReset ∉ s.turns →
    (∀ k < n, ∀ u, Sys2Proof.core.run k s = .next u → u.status.busy = true) →
    Sys2Proof.core.run n s = .next t →
    ∃ k u, k ≤ n ∧ engineRun k s = .next u ∧ u.operation = t.operation
end

