-- ==== Sys2Proof/Laws/Cells.lean ====
section
/-! SUPPORT. The laws of the sorted cell list behind frame memory and `GW`: read after write, canonical form
kept, and equality of two lists in that form from equality of what they hold. -/

namespace Sys2Proof.Machine

variable {α : Type} {k k' : Nat} {v w : α} {l l' : List (Nat × α)}

@[simp] theorem cellGet_nil : cellGet k ([] : List (Nat × α)) = none := rfl

theorem cellGet_cons (c : Nat × α) :
    cellGet k (c :: l) = if c.1 = k then some c.2 else cellGet k l := rfl

@[simp] theorem cellGet_cellSet_same : cellGet k (cellSet k v l) = some v := by
  induction l with
  | nil => simp [cellSet, cellGet]
  | cons c l ih =>
    unfold cellSet
    split
    · simp [cellGet]
    · split
      · simp [cellGet]
      · simp [cellGet, *]

theorem cellGet_cellSet_ne (h : k' ≠ k) : cellGet k' (cellSet k v l) = cellGet k' l := by
  induction l with
  | nil => simp [cellSet, cellGet, h.symm]
  | cons c l ih =>
    unfold cellSet
    split
    · simp [cellGet, h.symm]
    · split
      · rename_i hc
        simp [cellGet, h.symm, hc]
      · simp [cellGet, ih]

theorem cellGet_cellSet :
    cellGet k' (cellSet k v l) = if k' = k then some v else cellGet k' l := by
  split
  · next h => rw [h, cellGet_cellSet_same]
  · next h => exact cellGet_cellSet_ne h

/-- A cell of the list after a write is the written one or was there before. -/
theorem mem_cellSet {c : Nat × α} (h : c ∈ cellSet k v l) : c = (k, v) ∨ c ∈ l := by
  induction l with
  | nil => simpa [cellSet] using h
  | cons d l ih =>
    unfold cellSet at h
    split at h
    · simpa using h
    · split at h
      · simp only [List.mem_cons] at h ⊢
        tauto
      · simp only [List.mem_cons] at h ⊢
        rcases h with h | h
        · tauto
        · have := ih h
          tauto

theorem cellSet_sorted (h : cellsSorted l) : cellsSorted (cellSet k v l) := by
  induction l with
  | nil => simp [cellSet, cellsSorted]
  | cons c l ih =>
    have hc := List.pairwise_cons.1 h
    unfold cellSet
    split
    · next hk =>
      refine List.pairwise_cons.2 ⟨fun d hd => ?_, h⟩
      rcases List.mem_cons.1 hd with rfl | hd
      · exact hk
      · exact hk.trans (hc.1 d hd)
    · split
      · next hk => exact List.pairwise_cons.2 ⟨fun d hd => hk ▸ hc.1 d hd, hc.2⟩
      · next hlt hne =>
        refine List.pairwise_cons.2 ⟨fun d hd => ?_, ih hc.2⟩
        rcases mem_cellSet hd with rfl | hd
        · show c.1 < k
          omega
        · exact hc.1 d hd

/-- A key below every listed one has no entry. -/
theorem cellGet_of_lt (h : ∀ c ∈ l, k < c.1) : cellGet k l = none := by
  induction l with
  | nil => rfl
  | cons c l ih =>
    have h1 := h c (List.mem_cons_self ..)
    rw [cellGet_cons, if_neg (by omega)]
    exact ih fun d hd => h d (List.mem_cons_of_mem _ hd)

theorem cellGet_eq_some (h : cellsSorted l) : cellGet k l = some v ↔ (k, v) ∈ l := by
  induction l with
  | nil => simp
  | cons c l ih =>
    have hc := List.pairwise_cons.1 h
    rw [cellGet_cons]
    split
    · next hk =>
      subst hk
      constructor
      · intro hv
        obtain rfl : c.2 = v := by simpa using hv
        exact List.mem_cons_self ..
      · intro hm
        rcases List.mem_cons.1 hm with hm | hm
        · rw [← hm]
        · exact absurd (hc.1 _ hm) (lt_irrefl _)
    · next hk =>
      rw [ih hc.2]
      constructor
      · exact fun hm => List.mem_cons_of_mem _ hm
      · intro hm
        rcases List.mem_cons.1 hm with rfl | hm
        · exact absurd rfl hk
        · exact hm

theorem mem_of_cellGet (h : cellGet k l = some v) : (k, v) ∈ l := by
  induction l with
  | nil => simp at h
  | cons c l ih =>
    rw [cellGet_cons] at h
    split at h
    · next hk =>
      subst hk
      obtain rfl : c.2 = v := by simpa using h
      exact List.mem_cons_self ..
    · exact List.mem_cons_of_mem _ (ih h)

/-- Canonical lists that hold the same are the same list. -/
theorem cells_ext (h : cellsSorted l) (h' : cellsSorted l')
    (heq : ∀ k, cellGet k l = cellGet k l') : l = l' := by
  induction l generalizing l' with
  | nil =>
    cases l' with
    | nil => rfl
    | cons c l' => simpa [cellGet] using heq c.1
  | cons c l ih =>
    cases l' with
    | nil => simpa [cellGet] using heq c.1
    | cons c' l' =>
      have hc := List.pairwise_cons.1 h
      have hc' := List.pairwise_cons.1 h'
      have hkey : c.1 = c'.1 := by
        rcases lt_trichotomy c.1 c'.1 with hlt | he | hgt
        · have := heq c.1
          rw [cellGet_cons, if_pos rfl, cellGet_of_lt] at this
          · simp at this
          · intro d hd
            rcases List.mem_cons.1 hd with rfl | hd
            · exact hlt
            · exact hlt.trans (hc'.1 d hd)
        · exact he
        · have := heq c'.1
          rw [cellGet_cons (l := l'), if_pos rfl, cellGet_of_lt] at this
          · simp at this
          · intro d hd
            rcases List.mem_cons.1 hd with rfl | hd
            · exact hgt
            · exact hgt.trans (hc.1 d hd)
      have hval : c.2 = c'.2 := by
        have := heq c.1
        simpa [cellGet, hkey] using this
      have htail : l = l' := by
        refine ih hc.2 hc'.2 fun k => ?_
        by_cases hk : k = c.1
        · subst hk
          rw [cellGet_of_lt hc.1, cellGet_of_lt (hkey ▸ hc'.1)]
        · have := heq k
          rwa [cellGet_cons, cellGet_cons, if_neg (Ne.symm hk),
            if_neg (hkey ▸ Ne.symm hk)] at this
      rw [htail, Prod.ext hkey hval]

/-- Writing what is there already changes nothing. -/
theorem cellSet_of_cellGet (h : cellsSorted l) (hv : cellGet k l = some v) : cellSet k v l = l :=
  cells_ext (cellSet_sorted h) h fun k' => by
    rw [cellGet_cellSet]
    split
    · next hk => rw [hk, hv]
    · rfl

end Sys2Proof.Machine
end

