-- ==== Sys2Proof/Laws/Decode.lean ====
section
/-! SUPPORT. The fields of an assembled descriptor, and the register map both ways. -/

namespace Sys2Proof

theorem aligned2_iff {off : FbOff} : aligned2 off = true ↔ off.toNat % 2 = 0 := by
  simp [aligned2, ← BitVec.toNat_inj, BitVec.extractLsb'_toNat]

theorem aligned4_iff {off : FbOff} : aligned4 off = true ↔ off.toNat % 4 = 0 := by
  simp [aligned4, ← BitVec.toNat_inj, BitVec.extractLsb'_toNat]

@[simp] theorem tdWr_mkTd (wr : Bool) (size : BitVec 2) (a : Addr) : tdWr (mkTd wr size a) = wr := by
  simp only [tdWr, mkTd, BitVec.getLsbD_setWidth, BitVec.getLsbD_append]
  simp

@[simp] theorem tdSize_mkTd (wr : Bool) (size : BitVec 2) (a : Addr) :
    tdSize (mkTd wr size a) = size := by
  ext i hi
  simp only [tdSize, mkTd, BitVec.getElem_extractLsb', BitVec.getLsbD_setWidth, BitVec.getLsbD_append]
  interval_cases i <;> simp

@[simp] theorem tdAddr_mkTd (wr : Bool) (size : BitVec 2) (a : Addr) : tdAddr (mkTd wr size a) = a := by
  ext i hi
  simp only [tdAddr, mkTd, BitVec.getElem_extractLsb', BitVec.getLsbD_setWidth, BitVec.getLsbD_append]
  interval_cases i <;> simp

/-- A descriptor is its three fields (R91). -/
theorem mkTd_fields (td : TD) : mkTd (tdWr td) (tdSize td) (tdAddr td) = td := by
  ext i hi
  simp only [tdWr, tdSize, tdAddr, mkTd, BitVec.getElem_setWidth, BitVec.getLsbD_extractLsb',
    BitVec.getLsbD_append]
  interval_cases i <;> simp

@[simp] theorem inAperture_fbAddr (off : FbOff) : inAperture (fbAddr off) = true := by
  simp only [inAperture, fbAddr, BitVec.getLsbD_setWidth, BitVec.getLsbD_append]
  simp

@[simp] theorem fbOffOf_fbAddr (off : FbOff) : fbOffOf (fbAddr off) = off := by
  ext i hi
  simp only [fbOffOf, fbAddr, BitVec.getElem_extractLsb', BitVec.getLsbD_setWidth,
    BitVec.getLsbD_append]
  interval_cases i <;> simp

/-- An address in the aperture is its offset's (R60, R96). -/
theorem fbAddr_fbOffOf {a : Addr} (h : inAperture a = true) : fbAddr (fbOffOf a) = a := by
  ext i hi
  rw [inAperture] at h
  simp only [fbOffOf, fbAddr, BitVec.getElem_setWidth, BitVec.getLsbD_extractLsb',
    BitVec.getLsbD_append]
  interval_cases i <;> simp_all

@[simp] theorem inAperture_offset (r : Reg) : inAperture r.offset = false := by
  cases r <;> rfl

@[simp] theorem regAt_offset (r : Reg) : regAt r.offset = some r := by
  cases r <;> rfl

theorem offset_of_regAt {a : Addr} {r : Reg} (h : regAt a = some r) : r.offset = a := by
  have := List.find?_some h
  simpa using this

/-! ## What decoding answers, region by region -/

theorem decode_reserved {t : Txn} (h : tdSize t.td = sizeReserved) :
    decode t = .error .reservedSize := by
  rw [decode, if_pos h]

theorem decode_frame {t : Txn} (h : tdSize t.td ≠ sizeReserved) (ha : inAperture (tdAddr t.td) = true) :
    decode t = decodeFrame (tdWr t.td) (tdSize t.td) (fbOffOf (tdAddr t.td)) t.wdata := by
  rw [decode, if_neg h, if_pos ha]

theorem decode_register {t : Txn} (h : tdSize t.td ≠ sizeReserved)
    (ha : inAperture (tdAddr t.td) = false) :
    decode t = decodeRegister (tdWr t.td) (tdSize t.td) (tdAddr t.td) t.wdata := by
  rw [decode, if_neg h, if_neg (by simp [ha])]

/-- The rows of the frame region: which size, which alignment, which instruction. -/
theorem decodeFrame_ok {wr : Bool} {size : BitVec 2} {off : FbOff} {d : Word} {i : Instr}
    (h : decodeFrame wr size off d = .ok i) :
    (size = size8 ∧ i = if wr then .wr8Fb off d else .rd8Fb off) ∨
    (size = size16 ∧ aligned2 off = true ∧ i = if wr then .wr16Fb off d else .rd16Fb off) ∨
    (size = size32 ∧ aligned4 off = true ∧ i = if wr then .wr32Fb off d else .rd32Fb off) := by
  unfold decodeFrame at h
  split_ifs at h with h1 h2 h3
  all_goals
    cases h
    simp_all

/-- The rows of the register region: a mapped register, accessed as a word. -/
theorem decodeRegister_ok {wr : Bool} {size : BitVec 2} {a : Addr} {d : Word} {i : Instr}
    (h : decodeRegister wr size a d = .ok i) :
    size = size32 ∧ ∃ r : Reg, r.offset = a ∧ i = regInstr wr d r := by
  unfold decodeRegister at h
  split at h
  · next hs =>
    split at h
    · next r hr => cases h; exact ⟨hs, r, offset_of_regAt hr, rfl⟩
    · split at h <;> cases h
  · cases h

/-- What decodes is well formed. -/
theorem wellFormed_of_decode {t : Txn} {i : Instr} (h : decode t = .ok i) : i.wellFormed = true := by
  unfold decode at h
  split_ifs at h with h1 h2
  · rcases decodeFrame_ok h with ⟨_, rfl⟩ | ⟨_, ha, rfl⟩ | ⟨_, ha, rfl⟩ <;>
      cases tdWr t.td <;> simp_all [Instr.wellFormed]
  · obtain ⟨_, r, _, rfl⟩ := decodeRegister_ok h
    cases r <;> cases tdWr t.td <;> rfl

end Sys2Proof
end

