-- ==== Sys2Proof/Laws/State.lean ====
section
/-! SUPPORT. One lemma a field for each update of State, true by `rfl`, so that no proof unfolds one. -/

namespace Sys2Proof.Machine

section
variable (r : Response) (s : State)
@[simp] theorem State.respond_status : (s.respond r).status = s.status := rfl
@[simp] theorem State.respond_irqEn : (s.respond r).irqEn = s.irqEn := rfl
@[simp] theorem State.respond_winOrg : (s.respond r).winOrg = s.winOrg := rfl
@[simp] theorem State.respond_winSize : (s.respond r).winSize = s.winSize := rfl
@[simp] theorem State.respond_fb : (s.respond r).fb = s.fb := rfl
@[simp] theorem State.respond_gw : (s.respond r).gw = s.gw := rfl
@[simp] theorem State.respond_phase : (s.respond r).phase = s.phase := rfl
@[simp] theorem State.respond_cx : (s.respond r).cx = s.cx := rfl
@[simp] theorem State.respond_cy : (s.respond r).cy = s.cy := rfl
@[simp] theorem State.respond_latch : (s.respond r).latch = s.latch := rfl
@[simp] theorem State.respond_response : (s.respond r).response = some r := rfl
@[simp] theorem State.respond_rstN : (s.respond r).rstN = s.rstN := rfl
@[simp] theorem State.respond_hostQueue : (s.respond r).hostQueue = s.hostQueue := rfl
@[simp] theorem State.respond_turns : (s.respond r).turns = s.turns := rfl
end

section
variable (x : Status) (s : State)
@[simp] theorem State.withStatus_status : (s.withStatus x).status = x := rfl
@[simp] theorem State.withStatus_irqEn : (s.withStatus x).irqEn = s.irqEn := rfl
@[simp] theorem State.withStatus_winOrg : (s.withStatus x).winOrg = s.winOrg := rfl
@[simp] theorem State.withStatus_winSize : (s.withStatus x).winSize = s.winSize := rfl
@[simp] theorem State.withStatus_fb : (s.withStatus x).fb = s.fb := rfl
@[simp] theorem State.withStatus_gw : (s.withStatus x).gw = s.gw := rfl
@[simp] theorem State.withStatus_phase : (s.withStatus x).phase = s.phase := rfl
@[simp] theorem State.withStatus_cx : (s.withStatus x).cx = s.cx := rfl
@[simp] theorem State.withStatus_cy : (s.withStatus x).cy = s.cy := rfl
@[simp] theorem State.withStatus_latch : (s.withStatus x).latch = s.latch := rfl
@[simp] theorem State.withStatus_response : (s.withStatus x).response = s.response := rfl
@[simp] theorem State.withStatus_rstN : (s.withStatus x).rstN = s.rstN := rfl
@[simp] theorem State.withStatus_hostQueue : (s.withStatus x).hostQueue = s.hostQueue := rfl
@[simp] theorem State.withStatus_turns : (s.withStatus x).turns = s.turns := rfl
end

section
variable (x : IrqEn) (s : State)
@[simp] theorem State.withIrqEn_status : (s.withIrqEn x).status = s.status := rfl
@[simp] theorem State.withIrqEn_irqEn : (s.withIrqEn x).irqEn = x := rfl
@[simp] theorem State.withIrqEn_winOrg : (s.withIrqEn x).winOrg = s.winOrg := rfl
@[simp] theorem State.withIrqEn_winSize : (s.withIrqEn x).winSize = s.winSize := rfl
@[simp] theorem State.withIrqEn_fb : (s.withIrqEn x).fb = s.fb := rfl
@[simp] theorem State.withIrqEn_gw : (s.withIrqEn x).gw = s.gw := rfl
@[simp] theorem State.withIrqEn_phase : (s.withIrqEn x).phase = s.phase := rfl
@[simp] theorem State.withIrqEn_cx : (s.withIrqEn x).cx = s.cx := rfl
@[simp] theorem State.withIrqEn_cy : (s.withIrqEn x).cy = s.cy := rfl
@[simp] theorem State.withIrqEn_latch : (s.withIrqEn x).latch = s.latch := rfl
@[simp] theorem State.withIrqEn_response : (s.withIrqEn x).response = s.response := rfl
@[simp] theorem State.withIrqEn_rstN : (s.withIrqEn x).rstN = s.rstN := rfl
@[simp] theorem State.withIrqEn_hostQueue : (s.withIrqEn x).hostQueue = s.hostQueue := rfl
@[simp] theorem State.withIrqEn_turns : (s.withIrqEn x).turns = s.turns := rfl
end

section
variable (x : WinOrg) (s : State)
@[simp] theorem State.withWinOrg_status : (s.withWinOrg x).status = s.status := rfl
@[simp] theorem State.withWinOrg_irqEn : (s.withWinOrg x).irqEn = s.irqEn := rfl
@[simp] theorem State.withWinOrg_winOrg : (s.withWinOrg x).winOrg = x := rfl
@[simp] theorem State.withWinOrg_winSize : (s.withWinOrg x).winSize = s.winSize := rfl
@[simp] theorem State.withWinOrg_fb : (s.withWinOrg x).fb = s.fb := rfl
@[simp] theorem State.withWinOrg_gw : (s.withWinOrg x).gw = s.gw := rfl
@[simp] theorem State.withWinOrg_phase : (s.withWinOrg x).phase = s.phase := rfl
@[simp] theorem State.withWinOrg_cx : (s.withWinOrg x).cx = s.cx := rfl
@[simp] theorem State.withWinOrg_cy : (s.withWinOrg x).cy = s.cy := rfl
@[simp] theorem State.withWinOrg_latch : (s.withWinOrg x).latch = s.latch := rfl
@[simp] theorem State.withWinOrg_response : (s.withWinOrg x).response = s.response := rfl
@[simp] theorem State.withWinOrg_rstN : (s.withWinOrg x).rstN = s.rstN := rfl
@[simp] theorem State.withWinOrg_hostQueue : (s.withWinOrg x).hostQueue = s.hostQueue := rfl
@[simp] theorem State.withWinOrg_turns : (s.withWinOrg x).turns = s.turns := rfl
end

section
variable (x : WinSize) (s : State)
@[simp] theorem State.withWinSize_status : (s.withWinSize x).status = s.status := rfl
@[simp] theorem State.withWinSize_irqEn : (s.withWinSize x).irqEn = s.irqEn := rfl
@[simp] theorem State.withWinSize_winOrg : (s.withWinSize x).winOrg = s.winOrg := rfl
@[simp] theorem State.withWinSize_winSize : (s.withWinSize x).winSize = x := rfl
@[simp] theorem State.withWinSize_fb : (s.withWinSize x).fb = s.fb := rfl
@[simp] theorem State.withWinSize_gw : (s.withWinSize x).gw = s.gw := rfl
@[simp] theorem State.withWinSize_phase : (s.withWinSize x).phase = s.phase := rfl
@[simp] theorem State.withWinSize_cx : (s.withWinSize x).cx = s.cx := rfl
@[simp] theorem State.withWinSize_cy : (s.withWinSize x).cy = s.cy := rfl
@[simp] theorem State.withWinSize_latch : (s.withWinSize x).latch = s.latch := rfl
@[simp] theorem State.withWinSize_response : (s.withWinSize x).response = s.response := rfl
@[simp] theorem State.withWinSize_rstN : (s.withWinSize x).rstN = s.rstN := rfl
@[simp] theorem State.withWinSize_hostQueue : (s.withWinSize x).hostQueue = s.hostQueue := rfl
@[simp] theorem State.withWinSize_turns : (s.withWinSize x).turns = s.turns := rfl
end

section
variable (x : Memory) (s : State)
@[simp] theorem State.withFb_status : (s.withFb x).status = s.status := rfl
@[simp] theorem State.withFb_irqEn : (s.withFb x).irqEn = s.irqEn := rfl
@[simp] theorem State.withFb_winOrg : (s.withFb x).winOrg = s.winOrg := rfl
@[simp] theorem State.withFb_winSize : (s.withFb x).winSize = s.winSize := rfl
@[simp] theorem State.withFb_fb : (s.withFb x).fb = x := rfl
@[simp] theorem State.withFb_gw : (s.withFb x).gw = s.gw := rfl
@[simp] theorem State.withFb_phase : (s.withFb x).phase = s.phase := rfl
@[simp] theorem State.withFb_cx : (s.withFb x).cx = s.cx := rfl
@[simp] theorem State.withFb_cy : (s.withFb x).cy = s.cy := rfl
@[simp] theorem State.withFb_latch : (s.withFb x).latch = s.latch := rfl
@[simp] theorem State.withFb_response : (s.withFb x).response = s.response := rfl
@[simp] theorem State.withFb_rstN : (s.withFb x).rstN = s.rstN := rfl
@[simp] theorem State.withFb_hostQueue : (s.withFb x).hostQueue = s.hostQueue := rfl
@[simp] theorem State.withFb_turns : (s.withFb x).turns = s.turns := rfl
end

section
variable (x : GrayArray) (s : State)
@[simp] theorem State.withGw_status : (s.withGw x).status = s.status := rfl
@[simp] theorem State.withGw_irqEn : (s.withGw x).irqEn = s.irqEn := rfl
@[simp] theorem State.withGw_winOrg : (s.withGw x).winOrg = s.winOrg := rfl
@[simp] theorem State.withGw_winSize : (s.withGw x).winSize = s.winSize := rfl
@[simp] theorem State.withGw_fb : (s.withGw x).fb = s.fb := rfl
@[simp] theorem State.withGw_gw : (s.withGw x).gw = x := rfl
@[simp] theorem State.withGw_phase : (s.withGw x).phase = s.phase := rfl
@[simp] theorem State.withGw_cx : (s.withGw x).cx = s.cx := rfl
@[simp] theorem State.withGw_cy : (s.withGw x).cy = s.cy := rfl
@[simp] theorem State.withGw_latch : (s.withGw x).latch = s.latch := rfl
@[simp] theorem State.withGw_response : (s.withGw x).response = s.response := rfl
@[simp] theorem State.withGw_rstN : (s.withGw x).rstN = s.rstN := rfl
@[simp] theorem State.withGw_hostQueue : (s.withGw x).hostQueue = s.hostQueue := rfl
@[simp] theorem State.withGw_turns : (s.withGw x).turns = s.turns := rfl
end

section
variable (x : Latch) (s : State)
@[simp] theorem State.withLatch_status : (s.withLatch x).status = s.status := rfl
@[simp] theorem State.withLatch_irqEn : (s.withLatch x).irqEn = s.irqEn := rfl
@[simp] theorem State.withLatch_winOrg : (s.withLatch x).winOrg = s.winOrg := rfl
@[simp] theorem State.withLatch_winSize : (s.withLatch x).winSize = s.winSize := rfl
@[simp] theorem State.withLatch_fb : (s.withLatch x).fb = s.fb := rfl
@[simp] theorem State.withLatch_gw : (s.withLatch x).gw = s.gw := rfl
@[simp] theorem State.withLatch_phase : (s.withLatch x).phase = s.phase := rfl
@[simp] theorem State.withLatch_cx : (s.withLatch x).cx = s.cx := rfl
@[simp] theorem State.withLatch_cy : (s.withLatch x).cy = s.cy := rfl
@[simp] theorem State.withLatch_latch : (s.withLatch x).latch = x := rfl
@[simp] theorem State.withLatch_response : (s.withLatch x).response = s.response := rfl
@[simp] theorem State.withLatch_rstN : (s.withLatch x).rstN = s.rstN := rfl
@[simp] theorem State.withLatch_hostQueue : (s.withLatch x).hostQueue = s.hostQueue := rfl
@[simp] theorem State.withLatch_turns : (s.withLatch x).turns = s.turns := rfl
end

section
variable (p : Phase) (x y : Nat) (s : State)
@[simp] theorem State.moveTo_status : (s.moveTo p x y).status = s.status := rfl
@[simp] theorem State.moveTo_irqEn : (s.moveTo p x y).irqEn = s.irqEn := rfl
@[simp] theorem State.moveTo_winOrg : (s.moveTo p x y).winOrg = s.winOrg := rfl
@[simp] theorem State.moveTo_winSize : (s.moveTo p x y).winSize = s.winSize := rfl
@[simp] theorem State.moveTo_fb : (s.moveTo p x y).fb = s.fb := rfl
@[simp] theorem State.moveTo_gw : (s.moveTo p x y).gw = s.gw := rfl
@[simp] theorem State.moveTo_phase : (s.moveTo p x y).phase = p := rfl
@[simp] theorem State.moveTo_cx : (s.moveTo p x y).cx = x := rfl
@[simp] theorem State.moveTo_cy : (s.moveTo p x y).cy = y := rfl
@[simp] theorem State.moveTo_latch : (s.moveTo p x y).latch = s.latch := rfl
@[simp] theorem State.moveTo_response : (s.moveTo p x y).response = s.response := rfl
@[simp] theorem State.moveTo_rstN : (s.moveTo p x y).rstN = s.rstN := rfl
@[simp] theorem State.moveTo_hostQueue : (s.moveTo p x y).hostQueue = s.hostQueue := rfl
@[simp] theorem State.moveTo_turns : (s.moveTo p x y).turns = s.turns := rfl
end

section
variable (l : Bool) (s : State)
@[simp] theorem resetBlock_status : (resetBlock l s).status = State.reset.status := rfl
@[simp] theorem resetBlock_irqEn : (resetBlock l s).irqEn = State.reset.irqEn := rfl
@[simp] theorem resetBlock_winOrg : (resetBlock l s).winOrg = State.reset.winOrg := rfl
@[simp] theorem resetBlock_winSize : (resetBlock l s).winSize = State.reset.winSize := rfl
@[simp] theorem resetBlock_fb : (resetBlock l s).fb = State.reset.fb := rfl
@[simp] theorem resetBlock_gw : (resetBlock l s).gw = State.reset.gw := rfl
@[simp] theorem resetBlock_phase : (resetBlock l s).phase = State.reset.phase := rfl
@[simp] theorem resetBlock_cx : (resetBlock l s).cx = State.reset.cx := rfl
@[simp] theorem resetBlock_cy : (resetBlock l s).cy = State.reset.cy := rfl
@[simp] theorem resetBlock_latch : (resetBlock l s).latch = State.reset.latch := rfl
@[simp] theorem resetBlock_response : (resetBlock l s).response = State.reset.response := rfl
@[simp] theorem resetBlock_rstN : (resetBlock l s).rstN = l := rfl
@[simp] theorem resetBlock_hostQueue : (resetBlock l s).hostQueue = s.hostQueue := rfl
@[simp] theorem resetBlock_turns : (resetBlock l s).turns = s.turns := rfl
end

end Sys2Proof.Machine
end

