-- ==== Sys2Proof/Laws/Memory.lean ====
section
/-! SUPPORT. The laws of frame memory: one byte after a write, `MemRead` and `MemWrite` byte by byte, the
canonical form kept by each operation. -/

namespace Sys2Proof.Machine

/-- A channel, and so a byte of frame memory, has 8 bits (R6). -/
@[simp] theorem chw_eq : Config.chw = 8 := rfl

theorem Byte.toNat_lt_256 (b : Byte) : b.toNat < 256 := b.isLt

theorem readByte_writeByte (m : Memory) (a b : Nat) (v : Byte) :
    readByte (writeByte m a v) b = if b = a then some v else readByte m b := cellGet_cellSet

@[simp] theorem readByte_writeByte_same (m : Memory) (a : Nat) (v : Byte) :
    readByte (writeByte m a v) a = some v := cellGet_cellSet_same

theorem readByte_writeByte_ne (m : Memory) {a b : Nat} (v : Byte) (h : b ≠ a) :
    readByte (writeByte m a v) b = readByte m b := cellGet_cellSet_ne h

@[simp] theorem readByte_nil (a : Nat) : readByte [] a = none := rfl

theorem writeByte_wf {m : Memory} {a : Nat} {v : Byte} (h : Memory.wf m) (ha : a < Config.fbBytes) :
    Memory.wf (writeByte m a v) :=
  ⟨cellSet_sorted h.1, fun c hc => by
    rcases mem_cellSet hc with rfl | hc
    · exact ha
    · exact h.2 c hc⟩

theorem memory_ext {m m' : Memory} (h : Memory.wf m) (h' : Memory.wf m')
    (heq : ∀ a, readByte m a = readByte m' a) : m = m' := cells_ext h.1 h'.1 heq

/-- Outside the bytes it writes, `MemWrite` changes nothing. -/
theorem readByte_memWrite_outside {n : Nat} : ∀ {m : Memory} {a b : Nat} {v : Word},
    b < a ∨ a + n ≤ b → readByte (memWrite m a n v) b = readByte m b := by
  induction n with
  | zero => intros; rfl
  | succ n ih =>
    intro m a b v h
    rw [memWrite, ih (by omega), readByte_writeByte_ne _ _ (by omega)]

/-- Byte `k` of what `MemWrite` writes (R62). -/
theorem readByte_memWrite_inside {n : Nat} : ∀ {m : Memory} {a k : Nat} {v : Word},
    k < n → readByte (memWrite m a n v) (a + k) = some (lowByte (v >>> (8 * k))) := by
  induction n with
  | zero => intro _ _ _ _ h; omega
  | succ n ih =>
    intro m a k v h
    rw [memWrite]
    cases k with
    | zero =>
      rw [readByte_memWrite_outside (by omega)]
      simp
    | succ k =>
      have := ih (m := writeByte m a (lowByte v)) (a := a + 1) (v := v >>> 8) (show k < n by omega)
      rw [show a + (k + 1) = a + 1 + k by omega, this, ← BitVec.shiftRight_add]
      congr 3
      omega

theorem memWrite_wf {n : Nat} : ∀ {m : Memory} {a : Nat} {v : Word},
    Memory.wf m → a + n ≤ Config.fbBytes → Memory.wf (memWrite m a n v) := by
  induction n with
  | zero => intro _ _ _ h _; exact h
  | succ n ih =>
    intro m a v h ha
    exact ih (writeByte_wf h (by omega)) (by omega)

/-- `MemRead(a, 1)`. -/
theorem memRead_one (m : Memory) (a : Nat) :
    memRead m a 1 = (readByte m a).map fun b => b.setWidth 32 := by
  cases h : readByte m a <;> simp [memRead, joinByte, h]

/-- `MemRead` fails exactly where a byte it reads has not been written. -/
theorem memRead_eq_none {n : Nat} : ∀ {m : Memory} {a : Nat},
    memRead m a n = none ↔ ∃ k < n, readByte m (a + k) = none := by
  induction n with
  | zero => simp [memRead]
  | succ n ih =>
    intro m a
    rw [memRead]
    constructor
    · intro h
      cases hb : readByte m a with
      | none => exact ⟨0, by omega, hb⟩
      | some b =>
        cases hr : memRead m (a + 1) n with
        | some r => simp [hb, hr] at h
        | none =>
          obtain ⟨k, hk, hn⟩ := ih.1 hr
          exact ⟨k + 1, by omega, by rw [← hn]; congr 1; omega⟩
    · rintro ⟨k, hk, hn⟩
      cases k with
      | zero => simp only [Nat.add_zero] at hn; simp [hn]
      | succ k =>
        have : memRead m (a + 1) n = none :=
          ih.2 ⟨k, by omega, by rw [← hn]; congr 1; omega⟩
        cases hb : readByte m a <;> simp [this]

/-- `MemRead(a, 2)` and `MemRead(a, 4)` from their bytes (R62). -/
theorem memRead_two {m : Memory} {a : Nat} {b0 b1 : Byte}
    (h0 : readByte m a = some b0) (h1 : readByte m (a + 1) = some b1) :
    memRead m a 2 = some ((b1 ++ b0).setWidth 32) := by
  simp only [memRead, h0, h1, joinByte]
  congr 1
  ext i hi
  simp only [BitVec.getElem_or, BitVec.getElem_shiftLeft, BitVec.getElem_setWidth,
    BitVec.getLsbD_append]
  interval_cases i <;> simp

theorem memRead_four {m : Memory} {a : Nat} {b0 b1 b2 b3 : Byte}
    (h0 : readByte m a = some b0) (h1 : readByte m (a + 1) = some b1)
    (h2 : readByte m (a + 2) = some b2) (h3 : readByte m (a + 3) = some b3) :
    memRead m a 4 = some ((b3 ++ b2 ++ b1 ++ b0).setWidth 32) := by
  simp only [memRead, h0, h1, h2, h3, joinByte]
  congr 1
  ext i hi
  simp only [BitVec.getElem_or, BitVec.getElem_shiftLeft, BitVec.getElem_setWidth,
    BitVec.getLsbD_append]
  interval_cases i <;> simp

theorem readByte_paint (m : Memory) (p a : Nat) (v : Byte) :
    readByte (paint m p v) a = if p ≤ a ∧ a < p + 3 then some v else readByte m a := by
  unfold paint
  simp only [readByte_writeByte]
  split_ifs <;> first | rfl | omega

theorem paint_wf {m : Memory} {p : Nat} {v : Byte} (h : Memory.wf m) (hp : p + 2 < Config.fbBytes) :
    Memory.wf (paint m p v) :=
  writeByte_wf (writeByte_wf (writeByte_wf h (by omega)) (by omega)) hp

end Sys2Proof.Machine
end

