-- ==== Sys2Proof/Laws/Engine.lean ====
section
/-! SUPPORT. What an engine step can do, said once (`engineStep_next_cases`), what each step leaves alone, and
the working gray array: a cell after a write, a share and a spread. -/

namespace Sys2Proof.Machine

variable {s t : State}

/-! ## The cursor -/

/-- `advance` moves the phase and the cursor only. -/
theorem advance_eq (ph : Phase) (s : State) :
    ∃ p x y, advance ph s = s.moveTo p x y := by
  unfold advance
  simp only
  split <;> exact ⟨_, _, _, rfl⟩

@[simp] theorem advance_status (ph : Phase) (s : State) : (advance ph s).status = s.status := by
  obtain ⟨p, x, y, h⟩ := advance_eq ph s
  rw [h, State.moveTo_status]

@[simp] theorem advance_fb (ph : Phase) (s : State) : (advance ph s).fb = s.fb := by
  obtain ⟨p, x, y, h⟩ := advance_eq ph s
  rw [h, State.moveTo_fb]

@[simp] theorem advance_gw (ph : Phase) (s : State) : (advance ph s).gw = s.gw := by
  obtain ⟨p, x, y, h⟩ := advance_eq ph s
  rw [h, State.moveTo_gw]

@[simp] theorem advance_latch (ph : Phase) (s : State) : (advance ph s).latch = s.latch := by
  obtain ⟨p, x, y, h⟩ := advance_eq ph s
  rw [h, State.moveTo_latch]

@[simp] theorem advance_rstN (ph : Phase) (s : State) : (advance ph s).rstN = s.rstN := by
  obtain ⟨p, x, y, h⟩ := advance_eq ph s
  rw [h, State.moveTo_rstN]

/-- Inside a row the cursor goes one column right (R120). -/
theorem advance_inside {ph : Phase} (h : s.cx + 1 ≠ s.latch.aw.toNat)
    (hy : ph = .luma → s.cy ≠ s.latch.ah.toNat) :
    advance ph s = s.moveTo s.phase (s.cx + 1) s.cy := by
  simp only [advance, nextCursor, if_neg h]
  rw [if_neg]
  exact fun hp => hy hp.1 hp.2

/-- At the end of a row that is not the last, or in the diffusion pass, it goes to the next row (R120). -/
theorem advance_row {ph : Phase} (h : s.cx + 1 = s.latch.aw.toNat)
    (hy : ph = .luma → s.cy + 1 ≠ s.latch.ah.toNat) :
    advance ph s = s.moveTo s.phase 0 (s.cy + 1) := by
  simp only [advance, nextCursor, if_pos h]
  rw [if_neg]
  exact fun hp => hy hp.1 hp.2

/-- At the end of the luminance pass the diffusion pass begins (R120). -/
theorem advance_end (h : s.cx + 1 = s.latch.aw.toNat) (hy : s.cy + 1 = s.latch.ah.toNat) :
    advance .luma s = s.moveTo .diffuse 0 0 := by
  simp [advance, nextCursor, h, hy]

/-! ## Engine steps -/

theorem engineEnabled_iff : engineEnabled s = true ↔
    s.rstN = true ∧ s.status.busy = true ∧
      (s.phase = .luma ∨ (s.phase = .diffuse ∧ s.cy ≤ s.latch.ah.toNat)) := by
  cases hp : s.phase <;> simp [engineEnabled, hp, and_assoc]

theorem engineStep_disabled (h : engineEnabled s = false) : engineStep s = .next s := by
  simp [engineStep, h]

theorem engineStep_luma (hr : s.rstN = true) (hb : s.status.busy = true) (hp : s.phase = .luma) :
    engineStep s = lumaStep s := by
  simp [engineStep, engineEnabled, hr, hb, hp]

theorem engineStep_visit (hr : s.rstN = true) (hb : s.status.busy = true) (hp : s.phase = .diffuse)
    (hy : s.cy < s.latch.ah.toNat) : engineStep s = .next (visitStep s) := by
  simp [engineStep, engineEnabled, hr, hb, hp, hy, hy.le]

theorem engineStep_complete (hr : s.rstN = true) (hb : s.status.busy = true) (hp : s.phase = .diffuse)
    (hy : s.cy = s.latch.ah.toNat) : engineStep s = .next (completeStep s) := by
  simp [engineStep, engineEnabled, hr, hb, hp, hy]

theorem lumaStep_some {v : Int} (h : pixelLuma s.fb (cursorOffset s) = some v) :
    lumaStep s = .next (advance .luma (s.withGw (graySet s.gw s.cy s.cx v))) := by
  simp [lumaStep, h]

theorem lumaStep_none (h : pixelLuma s.fb (cursorOffset s) = none) :
    lumaStep s = .fault .unwrittenLumaRead := by
  simp [lumaStep, h]

/-- Everything an engine step can do when it answers a next state. -/
theorem engineStep_next_cases (h : engineStep s = .next t) :
    (engineEnabled s = false ∧ t = s) ∨
    (s.rstN = true ∧ s.status.busy = true ∧ s.phase = .luma ∧
      ∃ v, pixelLuma s.fb (cursorOffset s) = some v ∧
        t = advance .luma (s.withGw (graySet s.gw s.cy s.cx v))) ∨
    (s.rstN = true ∧ s.status.busy = true ∧ s.phase = .diffuse ∧ s.cy < s.latch.ah.toNat ∧
      t = visitStep s) ∨
    (s.rstN = true ∧ s.status.busy = true ∧ s.phase = .diffuse ∧ s.cy = s.latch.ah.toNat ∧
      t = completeStep s) := by
  cases he : engineEnabled s with
  | false =>
    rw [engineStep_disabled he] at h
    cases h
    exact .inl ⟨rfl, rfl⟩
  | true =>
    obtain ⟨hr, hb, hp | ⟨hp, hy⟩⟩ := engineEnabled_iff.1 he
    · rw [engineStep_luma hr hb hp] at h
      cases hv : pixelLuma s.fb (cursorOffset s) with
      | none => rw [lumaStep_none hv] at h; cases h
      | some v =>
        rw [lumaStep_some hv] at h
        cases h
        exact .inr (.inl ⟨hr, hb, hp, v, rfl, rfl⟩)
    · rcases hy.lt_or_eq with hy | hy
      · rw [engineStep_visit hr hb hp hy] at h
        cases h
        exact .inr (.inr (.inl ⟨hr, hb, hp, hy, rfl⟩))
      · rw [engineStep_complete hr hb hp hy] at h
        cases h
        exact .inr (.inr (.inr ⟨hr, hb, hp, hy, rfl⟩))

/-- An engine step faults only in the luminance pass. -/
theorem engineStep_fault_cases {f : Fault} (h : engineStep s = .fault f) :
    s.rstN = true ∧ s.status.busy = true ∧ s.phase = .luma ∧
      pixelLuma s.fb (cursorOffset s) = none ∧ f = .unwrittenLumaRead := by
  cases he : engineEnabled s with
  | false => rw [engineStep_disabled he] at h; cases h
  | true =>
    obtain ⟨hr, hb, hp | ⟨hp, hy⟩⟩ := engineEnabled_iff.1 he
    · rw [engineStep_luma hr hb hp] at h
      cases hv : pixelLuma s.fb (cursorOffset s) with
      | none => rw [lumaStep_none hv] at h; cases h; exact ⟨hr, hb, hp, rfl, rfl⟩
      | some v => rw [lumaStep_some hv] at h; cases h
    · rcases hy.lt_or_eq with hy | hy
      · rw [engineStep_visit hr hb hp hy] at h; cases h
      · rw [engineStep_complete hr hb hp hy] at h; cases h

theorem engineStep_not_refused {r : Refusal} : engineStep s ≠ .refused r := by
  intro h
  cases he : engineEnabled s with
  | false => rw [engineStep_disabled he] at h; cases h
  | true =>
    obtain ⟨hr, hb, hp | ⟨hp, hy⟩⟩ := engineEnabled_iff.1 he
    · rw [engineStep_luma hr hb hp] at h
      cases hv : pixelLuma s.fb (cursorOffset s) with
      | none => rw [lumaStep_none hv] at h; cases h
      | some v => rw [lumaStep_some hv] at h; cases h
    · rcases hy.lt_or_eq with hy | hy
      · rw [engineStep_visit hr hb hp hy] at h; cases h
      · rw [engineStep_complete hr hb hp hy] at h; cases h

/-! ## Pixels -/

theorem pixelLuma_eq_none {m : Memory} {p : Nat} :
    pixelLuma m p = none ↔ ∃ k < 3, readByte m (p + k) = none := by
  constructor
  · intro h
    by_contra hc
    push Not at hc
    obtain ⟨r, hr⟩ := Option.ne_none_iff_exists'.1 (hc 0 (by omega))
    obtain ⟨g, hg⟩ := Option.ne_none_iff_exists'.1 (hc 1 (by omega))
    obtain ⟨b, hb⟩ := Option.ne_none_iff_exists'.1 (hc 2 (by omega))
    simp only [Nat.add_zero] at hr
    simp [pixelLuma, hr, hg, hb] at h
  · rintro ⟨k, hk, hn⟩
    unfold pixelLuma
    split
    · next r g b hr hg hb =>
      interval_cases k
      · rw [Nat.add_zero, hr] at hn; cases hn
      · rw [hg] at hn; cases hn
      · rw [hb] at hn; cases hn
    · rfl

theorem luminance_eq (r g b : Byte) :
    luminance r g b = 30 * (r.toNat : Int) + 59 * (g.toNat : Int) + 11 * (b.toNat : Int) := by
  simp [luminance, Config.lumaR, Config.lumaG, Config.lumaB]

/-- A luminance lies in 0 to 25500 (R111). -/
theorem luminance_range (r g b : Byte) : 0 ≤ luminance r g b ∧ luminance r g b ≤ 25500 := by
  have := Byte.toNat_lt_256 r
  have := Byte.toNat_lt_256 g
  have := Byte.toNat_lt_256 b
  rw [luminance_eq]
  omega

theorem pixelLuma_range {m : Memory} {p : Nat} {v : Int} (h : pixelLuma m p = some v) :
    0 ≤ v ∧ v ≤ 25500 := by
  unfold pixelLuma at h
  split at h
  · cases h; exact luminance_range _ _ _
  · cases h

/-! ## Shares (R113) -/

/-- A share of weight `k` is the integer next to `k*e/16` on the side of 0 (R10, R113). -/
theorem shareOf_bounds (k e : Int) :
    (0 ≤ k * e → 0 ≤ shareOf k e ∧ 16 * shareOf k e ≤ k * e ∧ k * e < 16 * shareOf k e + 16) ∧
    (k * e ≤ 0 → shareOf k e ≤ 0 ∧ k * e ≤ 16 * shareOf k e ∧ 16 * shareOf k e - 16 < k * e) := by
  unfold shareOf tdiv Config.kDen
  generalize k * e = x
  split <;> omega

theorem shareOf_eq_tdiv (k e : Int) : shareOf k e = (k * e).tdiv 16 := by
  unfold shareOf tdiv Config.kDen
  split
  · next h => rw [Int.tdiv_eq_ediv_of_nonneg h]
  · next h => rw [← Int.tdiv_eq_ediv_of_nonneg (by omega), Int.neg_tdiv, neg_neg]

/-- A share of weight `k` of an error within 12800 moves its target by at most `800*k` (R130). -/
theorem shareOf_range {k e : Int} (he : -12800 ≤ e ∧ e ≤ 12800) (hk : k = 7 ∨ k = 3 ∨ k = 5 ∨ k = 1) :
    -(800 * k) ≤ shareOf k e ∧ shareOf k e ≤ 800 * k := by
  have := shareOf_bounds k e
  rcases hk with rfl | rfl | rfl | rfl <;> omega

/-- The quantiser chooses white from 12700 on (R112). -/
theorem isWhite_iff {w : Int} : isWhite w = true ↔ 12700 ≤ w := decide_eq_true_iff

theorem vHiC_eq : Config.vHiC = 25500 := rfl
theorem vLoC_eq : Config.vLoC = 0 := rfl

/-- The quantisation error is within 12800 of 0 for a working value in R130's range. -/
theorem quantError_range {w : Int} (h : -12800 ≤ w ∧ w ≤ 38300) :
    -12800 ≤ quantError w ∧ quantError w ≤ 12800 := by
  simp only [quantError, levelC, isWhite_iff, vHiC_eq, vLoC_eq]
  split <;> omega

/-! ## The working gray array -/

theorem grayKey_inj {i j i' j' : Nat} (hj : j < 256) (hj' : j' < 256) :
    grayKey i j = grayKey i' j' ↔ i = i' ∧ j = j' := by
  unfold grayKey
  omega

theorem ofInt_toInt {v : Int} (h : -131072 ≤ v ∧ v < 131072) : (BitVec.ofInt 18 v).toInt = v := by
  rw [BitVec.toInt_ofInt]
  unfold Int.bmod
  simp only [Nat.reducePow, Nat.cast_ofNat]
  omega

/-- A cell after a write: the written value where it fits 18 bits (R130), every other cell as before. -/
theorem grayAt_graySet_same (gw : GrayArray) (i j : Nat) {v : Int} (h : -131072 ≤ v ∧ v < 131072) :
    (grayAt (graySet gw i j v) i j).toInt = v := by
  simp [grayAt, graySet, ofInt_toInt h]

theorem grayAt_graySet_ne (gw : GrayArray) {i j i' j' : Nat} (v : Int) (hj : j < 256) (hj' : j' < 256)
    (h : i' ≠ i ∨ j' ≠ j) : grayAt (graySet gw i j v) i' j' = grayAt gw i' j' := by
  unfold grayAt graySet
  rw [cellGet_cellSet_ne]
  rw [Ne, grayKey_inj hj' hj]
  omega

theorem graySet_sorted {gw : GrayArray} {i j : Nat} {v : Int} (h : cellsSorted gw) :
    cellsSorted (graySet gw i j v) := cellSet_sorted h

theorem graySet_isSome {gw : GrayArray} {i j k : Nat} {v : Int} (h : (cellGet k gw).isSome = true) :
    (cellGet k (graySet gw i j v)).isSome = true := by
  unfold graySet
  rw [cellGet_cellSet]
  split
  · rfl
  · exact h

theorem graySet_isSome_same (gw : GrayArray) (i j : Nat) (v : Int) :
    (cellGet (grayKey i j) (graySet gw i j v)).isSome = true := by
  simp [graySet]

/-! ## One share and four -/

theorem inWindow_iff {l : Latch} {jj ii : Int} :
    inWindow l jj ii = true ↔ 0 ≤ jj ∧ jj < l.aw.toNat ∧ ii < l.ah.toNat := by
  simp [inWindow, and_assoc]

theorem share_sorted {l : Latch} {jj ii x : Int} {gw : GrayArray} (h : cellsSorted gw) :
    cellsSorted (share l jj ii x gw) := by
  unfold share
  split
  · exact graySet_sorted h
  · exact h

theorem share_isSome {l : Latch} {jj ii x : Int} {gw : GrayArray} {k : Nat}
    (h : (cellGet k gw).isSome = true) : (cellGet k (share l jj ii x gw)).isSome = true := by
  unfold share
  split
  · exact graySet_isSome h
  · exact h

/-- A window cell after a share: its target has the share added, where the sum fits 18 bits, every other
cell is as before (R114, R115). -/
theorem share_grayAt (l : Latch) {jj ii x : Int} (gw : GrayArray) {i j : Nat} (hii : 0 ≤ ii)
    (hj : j < l.aw.toNat) (hi : i < l.ah.toNat)
    (hfit : (i : Int) = ii → (j : Int) = jj →
      -131072 ≤ (grayAt gw i j).toInt + x ∧ (grayAt gw i j).toInt + x < 131072) :
    (grayAt (share l jj ii x gw) i j).toInt =
      (grayAt gw i j).toInt + (if (i : Int) = ii ∧ (j : Int) = jj then x else 0) := by
  have hw := l.aw.isLt
  unfold share
  by_cases hin : inWindow l jj ii = true
  · rw [if_pos hin]
    rw [inWindow_iff] at hin
    by_cases he : (i : Int) = ii ∧ (j : Int) = jj
    · obtain ⟨rfl, rfl⟩ := he
      simp only [Int.toNat_natCast, and_self, if_true]
      exact grayAt_graySet_same _ _ _ (hfit rfl rfl)
    · rw [if_neg he, grayAt_graySet_ne _ _ (by omega) (by omega) (by omega), add_zero]
  · rw [if_neg hin]
    rw [inWindow_iff] at hin
    rw [if_neg (by omega), add_zero]

theorem spread_sorted {l : Latch} {j i e : Int} {gw : GrayArray} (h : cellsSorted gw) :
    cellsSorted (spread l j i e gw) :=
  share_sorted (share_sorted (share_sorted (share_sorted h)))

theorem spread_isSome {l : Latch} {j i e : Int} {gw : GrayArray} {k : Nat}
    (h : (cellGet k gw).isSome = true) : (cellGet k (spread l j i e gw)).isSome = true :=
  share_isSome (share_isSome (share_isSome (share_isSome h)))

/-- An entry after a share is an old one or that of a window cell. -/
theorem mem_share {l : Latch} {jj ii x : Int} {gw : GrayArray} {c : Nat × Gray} (hii : 0 ≤ ii)
    (h : c ∈ share l jj ii x gw) :
    c ∈ gw ∨ ∃ i j, i < l.ah.toNat ∧ j < l.aw.toNat ∧ c.1 = grayKey i j := by
  unfold share at h
  split at h
  · next hin =>
    rw [inWindow_iff] at hin
    rcases mem_cellSet h with rfl | h
    · exact .inr ⟨ii.toNat, jj.toNat, by omega, by omega, rfl⟩
    · exact .inl h
  · exact .inl h

theorem mem_spread {l : Latch} {j i : Nat} {e : Int} {gw : GrayArray} {c : Nat × Gray}
    (h : c ∈ spread l j i e gw) :
    c ∈ gw ∨ ∃ i j, i < l.ah.toNat ∧ j < l.aw.toNat ∧ c.1 = grayKey i j := by
  unfold spread at h
  rcases mem_share (by omega) h with h | h
  · rcases mem_share (by omega) h with h | h
    · rcases mem_share (by omega) h with h | h
      · exact mem_share (by omega) h
      · exact .inr h
    · exact .inr h
  · exact .inr h

/-- What a visit of `(j, i)` with error `e` adds to the working value of `(j', i')` (R113). -/
def visitShare (j i : Nat) (e : Int) (i' j' : Nat) : Int :=
  if i' = i ∧ j' = j + 1 then shareOf 7 e
  else if i' = i + 1 ∧ j' + 1 = j then shareOf 3 e
  else if i' = i + 1 ∧ j' = j then shareOf 5 e
  else if i' = i + 1 ∧ j' = j + 1 then shareOf 1 e
  else 0

/-- Every window cell after a visit's four shares: the targets are four different cells, so each cell takes
at most one share, and no other cell changes (R113 to R115, R119). -/
theorem spread_grayAt (l : Latch) (j i : Nat) (e : Int) (gw : GrayArray) {i' j' : Nat}
    (hj : j' < l.aw.toNat) (hi : i' < l.ah.toNat)
    (hfit : -131072 ≤ (grayAt gw i' j').toInt + visitShare j i e i' j' ∧
      (grayAt gw i' j').toInt + visitShare j i e i' j' < 131072) :
    (grayAt (spread l j i e gw) i' j').toInt = (grayAt gw i' j').toInt + visitShare j i e i' j' := by
  have h0 := (grayAt gw i' j').toInt_lt
  have h1 := (grayAt gw i' j').le_toInt
  simp only [Nat.reduceSub, Int.reducePow] at h0 h1
  unfold visitShare at hfit ⊢
  unfold spread Config.kE Config.kSW Config.kS Config.kSE
  have e1 := share_grayAt l (jj := j + 1) (ii := i) (x := shareOf 7 e) gw (by omega) hj hi
    (by intro a b; rw [if_pos (by omega)] at hfit; exact hfit)
  have e2 := share_grayAt l (jj := j - 1) (ii := i + 1) (x := shareOf 3 e)
    (share l (j + 1) i (shareOf 7 e) gw) (by omega) hj hi
    (by
      intro a b
      rw [e1, if_neg (by omega), add_zero]
      rw [if_neg (by omega), if_pos (by omega)] at hfit
      exact hfit)
  have e3 := share_grayAt l (jj := j) (ii := i + 1) (x := shareOf 5 e)
    (share l (j - 1) (i + 1) (shareOf 3 e) (share l (j + 1) i (shareOf 7 e) gw)) (by omega) hj hi
    (by
      intro a b
      rw [e2, e1, if_neg (by omega), if_neg (by omega), add_zero, add_zero]
      rw [if_neg (by omega), if_neg (by omega), if_pos (by omega)] at hfit
      exact hfit)
  have e4 := share_grayAt l (jj := j + 1) (ii := i + 1) (x := shareOf 1 e)
    (share l j (i + 1) (shareOf 5 e)
      (share l (j - 1) (i + 1) (shareOf 3 e) (share l (j + 1) i (shareOf 7 e) gw))) (by omega) hj hi
    (by
      intro a b
      rw [e3, e2, e1, if_neg (by omega), if_neg (by omega), if_neg (by omega), add_zero, add_zero,
        add_zero]
      rw [if_neg (by omega), if_neg (by omega), if_neg (by omega), if_pos (by omega)] at hfit
      exact hfit)
  rw [e4, e3, e2, e1]
  split_ifs <;> omega

end Sys2Proof.Machine
end

