-- ==== Sys2Proof/Laws/Words.lean ====
section
/-! SUPPORT. The register words, field by field, and what a written word leaves in the fields. -/

namespace Sys2Proof.Machine

theorem toNat_ofBool (b : Bool) : (BitVec.ofBool b).toNat = b.toNat := by cases b <;> rfl

/-- The bits of the STATUS word (R157). -/
theorem Status.word_getLsbD (s : Status) (k : Nat) :
    s.word.getLsbD k = match k with
      | 0 => s.busy | 1 => s.done | 2 => s.cfgErr | 3 => s.ovrErr | 4 => s.accErr | _ => false := by
  match k with
  | 0 | 1 | 2 | 3 | 4 =>
    simp only [Status.word, BitVec.getLsbD_setWidth, BitVec.getLsbD_append]
    simp
  | k + 5 =>
    simp only [Status.word, BitVec.getLsbD_setWidth, BitVec.getLsbD_append]
    simp

/-- The bits of the IRQ_EN word (R159). -/
theorem IrqEn.word_getLsbD (e : IrqEn) (k : Nat) :
    e.word.getLsbD k = match k with
      | 1 => e.doneIe | 2 => e.cfgErrIe | 3 => e.ovrErrIe | 4 => e.accErrIe | _ => false := by
  match k with
  | 0 | 1 | 2 | 3 | 4 =>
    simp only [IrqEn.word, BitVec.getLsbD_setWidth, BitVec.getLsbD_append]
    simp
  | k + 5 =>
    simp only [IrqEn.word, BitVec.getLsbD_setWidth, BitVec.getLsbD_append]
    simp

/-- The WIN_ORG word as a number (R161). -/
theorem WinOrg.word_toNat (o : WinOrg) : o.word.toNat = o.y0.toNat * 2 ^ 16 + o.x0.toNat := by
  have hx := o.x0.isLt
  have hy := o.y0.isLt
  simp only [WinOrg.word, BitVec.toNat_setWidth, BitVec.toNat_append, BitVec.toNat_ofNat,
    ← Nat.shiftLeft_add_eq_or_of_lt hx]
  simp [Nat.shiftLeft_eq]
  omega

/-- The WIN_SIZE word as a number (R163). -/
theorem WinSize.word_toNat (z : WinSize) : z.word.toNat = z.h.toNat * 2 ^ 16 + z.w.toNat := by
  have hw := z.w.isLt
  have hh := z.h.isLt
  simp only [WinSize.word, BitVec.toNat_setWidth, BitVec.toNat_append, BitVec.toNat_ofNat,
    ← Nat.shiftLeft_add_eq_or_of_lt hw]
  simp [Nat.shiftLeft_eq]
  omega

/-- What a register reads after a write: its fields of the data, 0 in the reserved bits (R35, R94). -/
theorem IrqEn.word_ofWord (d : Word) : (IrqEn.ofWord d).word = d &&& 0x1E := by
  apply BitVec.eq_of_getLsbD_eq
  intro k hk
  rw [IrqEn.word_getLsbD]
  interval_cases k <;> simp [IrqEn.ofWord]

theorem WinOrg.word_ofWord (d : Word) : (WinOrg.ofWord d).word = d &&& 0x003F007F := by
  ext k hk
  simp only [WinOrg.ofWord, WinOrg.word, BitVec.getElem_setWidth, BitVec.getElem_and,
    BitVec.getLsbD_append, BitVec.getLsbD_extractLsb']
  interval_cases k <;> simp

theorem WinSize.word_ofWord (d : Word) : (WinSize.ofWord d).word = d &&& 0x007F00FF := by
  ext k hk
  simp only [WinSize.ofWord, WinSize.word, BitVec.getElem_setWidth, BitVec.getElem_and,
    BitVec.getLsbD_append, BitVec.getLsbD_extractLsb']
  interval_cases k <;> simp

end Sys2Proof.Machine
end

