-- ==== Sys2Proof/Laws/Transactions.lean ====
section
/-! SUPPORT. What a transaction can do, said once: the frame accesses, a START, and then `exec` of any
instruction (`exec_next_cases`), from which statements about all transactions follow by cases. -/

namespace Sys2Proof.Machine

variable {s t : State} {off : FbOff} {n : Nat} {d : Word}

theorem winValid_iff {o : WinOrg} {z : WinSize} : winValid o z = true ↔
    o.x0.toNat + z.w.toNat ≤ 128 ∧ o.y0.toNat + z.h.toNat ≤ 64 := by
  simp only [winValid, Bool.and_eq_true, decide_eq_true_eq]
  exact Iff.rfl

theorem winEmpty_iff {z : WinSize} : winEmpty z = true ↔ z.w = 0 ∨ z.h = 0 := by
  simp [winEmpty]

/-! ## Frame accesses -/

theorem frameRead_busy (h : s.status.busy = true) :
    frameRead off n s = .next (raiseBusError (some .accErr) s) := by
  simp [frameRead, h]

theorem frameRead_some {v : Word} (h : s.status.busy = false) (hv : memRead s.fb off.toNat n = some v) :
    frameRead off n s = .next (respondOk v s) := by
  simp [frameRead, h, hv]

theorem frameRead_none (h : s.status.busy = false) (hv : memRead s.fb off.toNat n = none) :
    frameRead off n s = .fault .unwrittenHostRead := by
  simp [frameRead, h, hv]

theorem frameRead_next_cases (h : frameRead off n s = .next t) :
    (s.status.busy = true ∧ t = raiseBusError (some .accErr) s) ∨
    (s.status.busy = false ∧ ∃ v, memRead s.fb off.toNat n = some v ∧ t = respondOk v s) := by
  cases hb : s.status.busy with
  | true =>
    rw [frameRead_busy hb] at h
    cases h
    exact .inl ⟨rfl, rfl⟩
  | false =>
    cases hv : memRead s.fb off.toNat n with
    | none => rw [frameRead_none hb hv] at h; cases h
    | some v =>
      rw [frameRead_some hb hv] at h
      cases h
      exact .inr ⟨rfl, v, rfl, rfl⟩

theorem frameWrite_busy (h : s.status.busy = true) :
    frameWrite off n d s = .next (raiseBusError (some .accErr) s) := by
  simp [frameWrite, h]

theorem frameWrite_idle (h : s.status.busy = false) :
    frameWrite off n d s = .next (respondOk 0 (s.withFb (memWrite s.fb off.toNat n d))) := by
  simp [frameWrite, h]

theorem frameWrite_next_cases (h : frameWrite off n d s = .next t) :
    (s.status.busy = true ∧ t = raiseBusError (some .accErr) s) ∨
    (s.status.busy = false ∧ t = respondOk 0 (s.withFb (memWrite s.fb off.toNat n d))) := by
  cases hb : s.status.busy with
  | true =>
    rw [frameWrite_busy hb] at h
    cases h
    exact .inl ⟨rfl, rfl⟩
  | false =>
    rw [frameWrite_idle hb] at h
    cases h
    exact .inr ⟨rfl, rfl⟩

/-! ## START -/

theorem startOperation_cases (s : State) :
    (s.status.busy = true ∧ startOperation s = setSticky .ovrErr s) ∨
    (s.status.busy = false ∧ winValid s.winOrg s.winSize = false ∧
      startOperation s = setSticky .cfgErr s) ∨
    (s.status.busy = false ∧ winValid s.winOrg s.winSize = true ∧ winEmpty s.winSize = true ∧
      startOperation s = setSticky .doneBit (latchWindow s)) ∨
    (s.status.busy = false ∧ winValid s.winOrg s.winSize = true ∧ winEmpty s.winSize = false ∧
      startOperation s =
        ((latchWindow s).moveTo .luma 0 0).withStatus { s.status with busy := true }) := by
  cases hb : s.status.busy <;> cases hv : winValid s.winOrg s.winSize <;>
    cases he : winEmpty s.winSize <;> simp [startOperation, hb, hv, he]

/-! ## Any transaction -/

/-- What performing `i` on `s` leaves, before the response. -/
inductive Performed (i : Instr) (s : State) : State → Prop where
  | kept : Performed i s s
  | started (d : Word) : i = .wrCtrl d → startBit d = true → Performed i s (startOperation s)
  | statusCleared (d : Word) : i = .wrStatus d → Performed i s (s.withStatus (s.status.clear d))
  | enablesSet (d : Word) : i = .wrIrqEn d → Performed i s (s.withIrqEn (IrqEn.ofWord d))
  | originSet (d : Word) : i = .wrWinOrg d → Performed i s (s.withWinOrg (WinOrg.ofWord d))
  | sizeSet (d : Word) : i = .wrWinSize d → Performed i s (s.withWinSize (WinSize.ofWord d))
  | refused : inAperture i.addr = true → s.status.busy = true → Performed i s (setSticky .accErr s)
  | stored (off : FbOff) (n : Nat) (d : Word) : i.addr = fbAddr off → i.isWrite = true →
      (n = 1 ∨ (n = 2 ∧ (i.wellFormed = true → aligned2 off = true)) ∨
        (n = 4 ∧ (i.wellFormed = true → aligned4 off = true))) →
      s.status.busy = false → Performed i s (s.withFb (memWrite s.fb off.toNat n d))

/-- Everything an instruction can do when it answers a next state. -/
theorem exec_next_cases {i : Instr} (h : exec i s = .next t) :
    ∃ u r, Performed i s u ∧ t = u.respond r := by
  have reads : ∀ off n, inAperture i.addr = true → frameRead off n s = .next t →
      ∃ u r, Performed i s u ∧ t = u.respond r := by
    intro off n ha h
    rcases frameRead_next_cases h with ⟨hb, rfl⟩ | ⟨_, v, _, rfl⟩
    · exact ⟨_, _, .refused ha hb, rfl⟩
    · exact ⟨_, _, .kept, rfl⟩
  have writes : ∀ off n d, i.addr = fbAddr off → i.isWrite = true →
      (n = 1 ∨ (n = 2 ∧ (i.wellFormed = true → aligned2 off = true)) ∨
        (n = 4 ∧ (i.wellFormed = true → aligned4 off = true))) →
      frameWrite off n d s = .next t → ∃ u r, Performed i s u ∧ t = u.respond r := by
    intro off n d ha hw hn h
    rcases frameWrite_next_cases h with ⟨hb, rfl⟩ | ⟨hb, rfl⟩
    · exact ⟨_, _, .refused (by simp [ha]) hb, rfl⟩
    · exact ⟨_, _, .stored off n d ha hw hn hb, rfl⟩
  cases i with
  | rdId => cases h; exact ⟨_, _, .kept, rfl⟩
  | wrId d => cases h; exact ⟨_, _, .kept, rfl⟩
  | rdGeom => cases h; exact ⟨_, _, .kept, rfl⟩
  | wrGeom d => cases h; exact ⟨_, _, .kept, rfl⟩
  | rdCtrl => cases h; exact ⟨_, _, .kept, rfl⟩
  | wrCtrl d =>
    cases h
    cases hd : startBit d with
    | true => exact ⟨_, _, .started d rfl hd, rfl⟩
    | false => exact ⟨_, _, .kept, rfl⟩
  | rdStatus => cases h; exact ⟨_, _, .kept, rfl⟩
  | wrStatus d => cases h; exact ⟨_, _, .statusCleared d rfl, rfl⟩
  | rdIrqEn => cases h; exact ⟨_, _, .kept, rfl⟩
  | wrIrqEn d => cases h; exact ⟨_, _, .enablesSet d rfl, rfl⟩
  | rdWinOrg => cases h; exact ⟨_, _, .kept, rfl⟩
  | wrWinOrg d => cases h; exact ⟨_, _, .originSet d rfl, rfl⟩
  | rdWinSize => cases h; exact ⟨_, _, .kept, rfl⟩
  | wrWinSize d => cases h; exact ⟨_, _, .sizeSet d rfl, rfl⟩
  | rd8Fb off => exact reads _ _ (by simp [Instr.addr]) h
  | rd16Fb off => exact reads _ _ (by simp [Instr.addr]) h
  | rd32Fb off => exact reads _ _ (by simp [Instr.addr]) h
  | wr8Fb off d => exact writes off 1 d rfl rfl (.inl rfl) h
  | wr16Fb off d => exact writes off 2 d rfl rfl (.inr (.inl ⟨rfl, id⟩)) h
  | wr32Fb off d => exact writes off 4 d rfl rfl (.inr (.inr ⟨rfl, id⟩)) h

/-- What an instruction can do to the host's queue, the turns and the reset pin: nothing. -/
theorem exec_outside {i : Instr} (h : exec i s = .next t) :
    t.hostQueue = s.hostQueue ∧ t.turns = s.turns ∧ t.rstN = s.rstN := by
  obtain ⟨u, r, hu, rfl⟩ := exec_next_cases h
  cases hu with
  | started d _ _ =>
    rcases startOperation_cases s with ⟨_, e⟩ | ⟨_, _, e⟩ | ⟨_, _, _, e⟩ | ⟨_, _, _, e⟩ <;>
      simp [e, setSticky, latchWindow]
  | _ => simp [setSticky]

/-! ## Steps -/

/-- `takeTurn` uses up at most one turn and changes nothing else. -/
theorem takeTurn_snd (s : State) : ∃ ts, (takeTurn s).2 = { s with turns := ts } := by
  cases h : s.turns with
  | nil =>
    have hs : (takeTurn s).2 = s := by simp [takeTurn, h]
    exact ⟨s.turns, hs⟩
  | cons t ts => exact ⟨ts, by simp [takeTurn, h]⟩

/-- What a step can be: a transaction performed, an illegal one answered, nothing presented, an engine
step, or a move of the reset pin. -/
theorem step_next_cases (h : step s = .next t) :
    (∃ q ts i, (takeTurn s).1 = .host ∧ s.rstN = true ∧ i.wellFormed = true ∧
      exec i { s with hostQueue := q, turns := ts } = .next t) ∨
    (∃ q ts, (takeTurn s).1 = .host ∧ s.rstN = true ∧ t = respondErr { s with hostQueue := q, turns := ts }) ∨
    (∃ ts, (takeTurn s).1 = .host ∧ (s.rstN = false ∨ s.hostQueue = []) ∧ t = { s with turns := ts }) ∨
    (∃ ts, (takeTurn s).1 = .engine ∧ engineStep { s with turns := ts } = .next t) ∨
    (∃ ts, (takeTurn s).1 = .assertReset ∧ t = assertReset { s with turns := ts }) ∨
    (∃ ts, (takeTurn s).1 = .releaseReset ∧ t = releaseReset { s with turns := ts }) := by
  obtain ⟨ts, hts⟩ := takeTurn_snd s
  rcases ht : takeTurn s with ⟨turn, s'⟩
  rw [ht] at hts
  simp only at hts
  subst hts
  simp only [step, ht] at h
  cases turn with
  | host =>
    simp only [present] at h
    cases hr : s.rstN with
    | false =>
      simp only [hr] at h
      cases h
      exact .inr (.inr (.inl ⟨ts, rfl, .inl rfl, by rw [← hr]⟩))
    | true =>
      simp only [hr] at h
      cases hq : s.hostQueue with
      | nil =>
        simp only [hq] at h
        cases h
        exact .inr (.inr (.inl ⟨ts, rfl, .inr rfl, by rw [← hr, ← hq]⟩))
      | cons x q =>
        simp only [hq] at h
        cases hd : decode x with
        | error e =>
          simp only [hd] at h
          cases h
          exact .inr (.inl ⟨q, ts, rfl, rfl, by rw [← hr]; rfl⟩)
        | ok i =>
          simp only [hd] at h
          exact .inl ⟨q, ts, i, rfl, rfl, wellFormed_of_decode hd, by rw [← h, ← hr]; rfl⟩
  | engine => exact .inr (.inr (.inr (.inl ⟨ts, rfl, h⟩)))
  | assertReset => cases h; exact .inr (.inr (.inr (.inr (.inl ⟨ts, rfl, rfl⟩))))
  | releaseReset => cases h; exact .inr (.inr (.inr (.inr (.inr ⟨ts, rfl, rfl⟩))))

end Sys2Proof.Machine
end

