-- ==== Sys2Proof/Laws/Invariant.lean ====
section
/-! SUPPORT. How the invariants carry over: states that agree on the operation, an idle state, frame memory's
form under every transaction and every engine step, and the weights of the shares received (R130). -/

namespace Sys2Proof.Machine

variable {s t : State}

/-! ## Frame memory keeps its canonical form -/

/-- The bytes of a store lie in frame memory. -/
theorem stored_fits {off : FbOff} {n : Nat}
    (h : n = 1 ∨ (n = 2 ∧ aligned2 off = true) ∨ (n = 4 ∧ aligned4 off = true)) :
    off.toNat + n ≤ Config.fbBytes := by
  have hl := off.isLt
  have hb : Config.fbBytes = 32768 := rfl
  rw [hb]
  rcases h with rfl | ⟨rfl, h⟩ | ⟨rfl, h⟩
  · omega
  · rw [aligned2_iff] at h; omega
  · rw [aligned4_iff] at h; omega

/-- Every transaction keeps frame memory in its canonical form. -/
theorem exec_fb_wf {i : Instr} (hi : i.wellFormed = true) (h : Memory.wf s.fb) (he : exec i s = .next t) :
    Memory.wf t.fb := by
  obtain ⟨u, r, hu, rfl⟩ := exec_next_cases he
  cases hu with
  | started d _ _ =>
    rcases startOperation_cases s with ⟨_, e⟩ | ⟨_, _, e⟩ | ⟨_, _, _, e⟩ | ⟨_, _, _, e⟩ <;>
      rw [e] <;> exact h
  | stored off n d _ _ hn _ =>
    refine memWrite_wf h (stored_fits ?_)
    rcases hn with hn | ⟨hn, ha⟩ | ⟨hn, ha⟩
    · exact .inl hn
    · exact .inr (.inl ⟨hn, ha hi⟩)
    · exact .inr (.inr ⟨hn, ha hi⟩)
  | _ => exact h

/-- The cursor on a window pixel is inside frame memory (R127). -/
theorem cursorOffset_fits (hf : s.latch.fits) (hx : s.cx < s.latch.aw.toNat)
    (hy : s.cy < s.latch.ah.toNat) : cursorOffset s + 2 < Config.fbBytes := by
  simp only [Latch.fits, Config.fw, Config.fh] at hf
  simp only [cursorOffset, pixelOffset, Config.fbBytes, Config.nch, Config.fw, Config.fh]
  omega

/-- A visit moves the cursor and changes frame memory and the working array, nothing else (R119, R120). -/
theorem visitStep_eq (s : State) : visitStep s =
    (((s.withGw (spread s.latch s.cx s.cy (quantError (grayAt s.gw s.cy s.cx).toInt) s.gw)).withFb
      (paint s.fb (cursorOffset s) (level (grayAt s.gw s.cy s.cx).toInt)))).moveTo s.phase
        (nextCursor s.latch s.cx s.cy).1 (nextCursor s.latch s.cx s.cy).2 := by
  simp [visitStep, advance]

/-! ## The invariants depend on the operation alone -/

theorem operation_eq_iff : t.operation = s.operation ↔
    t.fb = s.fb ∧ t.gw = s.gw ∧ t.phase = s.phase ∧ t.cx = s.cx ∧ t.cy = s.cy ∧ t.latch = s.latch ∧
      t.status.busy = s.status.busy := by
  simp [State.operation]

theorem State.Inv.of_operation (h : s.Inv) (ho : t.operation = s.operation) (hr : t.rstN = true) :
    t.Inv := by
  obtain ⟨h1, h2, h3, h4, h5, h6, h7⟩ := operation_eq_iff.1 ho
  constructor
  · rw [h7, h3]; exact h.busyIffActive
  · rw [h1]; exact h.fbWf
  · rw [h2]; exact h.gwSorted
  · rw [h6]; exact h.latchFits
  · rw [h4, h5]; exact h.cursorRange
  · rw [h3, h4, h5, h6]; exact h.lumaCursor
  · rw [h3, h4, h5, h6]; exact h.diffuseCursor
  · rw [h3, h4, h5, h6, h2]; exact h.lumaWritten
  · rw [h3, h6, h2]; exact h.diffuseWritten
  · rw [hr]; intro h; cases h

theorem State.GrayInv.of_operation (h : s.GrayInv) (ho : t.operation = s.operation) : t.GrayInv := by
  obtain ⟨_, h2, h3, h4, h5, h6, _⟩ := operation_eq_iff.1 ho
  constructor
  · rw [h2]; exact h.range
  · rw [h2, h3, h4, h5, h6]; exact h.luma
  · rw [h2, h3, h4, h5, h6]; exact h.diffuse

/-- Out of an operation only the forms, the latch and the cursor's range are asked for. -/
theorem State.Inv.idle (hr : t.rstN = true) (hb : t.status.busy = false) (hp : t.phase = .idle)
    (hfb : Memory.wf t.fb) (hgw : cellsSorted t.gw) (hl : t.latch.fits)
    (hc : t.cx ≤ Config.fw ∧ t.cy ≤ Config.fh) : t.Inv where
  busyIffActive := by simp [hb, hp]
  fbWf := hfb
  gwSorted := hgw
  latchFits := hl
  cursorRange := hc
  lumaCursor := by simp [hp]
  diffuseCursor := by simp [hp]
  lumaWritten := by simp [hp]
  diffuseWritten := by simp [hp]
  heldInReset := by simp [hr]

/-! ## Received weights (R130) -/

theorem receivedWeight_range (aw cx cy j i : Nat) :
    0 ≤ receivedWeight aw cx cy j i ∧ receivedWeight aw cx cy j i ≤ 16 := by
  unfold receivedWeight arrived
  split_ifs <;> omega

/-- At the first visit no share has arrived. -/
theorem receivedWeight_start (aw j i : Nat) : receivedWeight aw 0 0 j i = 0 := by
  simp [receivedWeight, arrived]

theorem arrived_next (l : Latch) {cx cy j i k : Nat} {inside : Bool}
    (hj : inside = true → j < l.aw.toNat) :
    arrived (nextCursor l cx cy).1 (nextCursor l cx cy).2 inside j i k =
      arrived cx cy inside j i k + if inside = true ∧ i = cy ∧ j = cx then (k : Int) else 0 := by
  unfold nextCursor arrived
  cases inside with
  | false => simp
  | true =>
    have := hj rfl
    simp only [Bool.true_and, Bool.or_eq_true, Bool.and_eq_true, decide_eq_true_eq, true_and]
    split
    · simp only [Nat.not_lt_zero, and_false, or_false]
      split_ifs <;> omega
    · simp only
      split_ifs <;> omega

/-- A visit adds its share's weight to each target in the window, and to no other cell. -/
theorem receivedWeight_next (l : Latch) {cx cy j i : Nat} (hx : cx < l.aw.toNat) (hj : j < l.aw.toNat) :
    receivedWeight l.aw.toNat (nextCursor l cx cy).1 (nextCursor l cx cy).2 j i =
      receivedWeight l.aw.toNat cx cy j i +
        (if i = cy ∧ j = cx + 1 then 7
         else if i = cy + 1 ∧ j + 1 = cx then 3
         else if i = cy + 1 ∧ j = cx then 5
         else if i = cy + 1 ∧ j = cx + 1 then 1
         else 0) := by
  unfold receivedWeight
  rw [arrived_next l (by omega), arrived_next l (by omega), arrived_next l (by simp),
    arrived_next l (by omega)]
  simp only [Bool.and_eq_true, decide_eq_true_eq]
  split_ifs <;> omega

/-- In the diffusion pass every window cell is in the range of R130. -/
theorem State.GrayInv.window_range (h : s.GrayInv) (hp : s.phase = .diffuse) {j i : Nat}
    (hj : j < s.latch.aw.toNat) (hi : i < s.latch.ah.toNat) :
    -12800 ≤ (grayAt s.gw i j).toInt ∧ (grayAt s.gw i j).toInt ≤ 38300 := by
  have := h.diffuse hp j i hj hi
  have := receivedWeight_range s.latch.aw.toNat s.cx s.cy j i
  omega

end Sys2Proof.Machine
end

