-- ==== Sys2Proof/Laws/PerInstr.lean ====
section
/-! SUPPORT. Per instruction: the fields of its encoding, read back (R91, R101). -/

namespace Sys2Proof.Laws.EncodeFields

open Sys2Proof

/-- The descriptor of an instruction has the `WR`, `SIZE` and `ADDR` of its row, a register row's address is
below the aperture and a multiple of 4, and a read drives `wdata = 0`. -/
def Statement (i : Instr) : Prop :=
  tdWr (encode i).td = i.isWrite ∧ tdSize (encode i).td = i.size ∧ tdAddr (encode i).td = i.addr ∧
    (i.isWrite = false → (encode i).wdata = 0) ∧
    (inAperture i.addr = false → i.size = size32 ∧ (i.addr).extractLsb' 0 2 = 0#2)

theorem all_fields (i : Instr) : Statement i := by
  refine ⟨tdWr_mkTd .., tdSize_mkTd .., tdAddr_mkTd .., ?_, ?_⟩ <;>
    cases i <;> simp [encode, Instr.isWrite, Instr.size, Instr.addr, Instr.wdata, Reg.offset]

theorem rdId : Statement .rdId := all_fields _
theorem wrId (d : Word) : Statement (.wrId d) := all_fields _
theorem rdGeom : Statement .rdGeom := all_fields _
theorem wrGeom (d : Word) : Statement (.wrGeom d) := all_fields _
theorem rdCtrl : Statement .rdCtrl := all_fields _
theorem wrCtrl (d : Word) : Statement (.wrCtrl d) := all_fields _
theorem rdStatus : Statement .rdStatus := all_fields _
theorem wrStatus (d : Word) : Statement (.wrStatus d) := all_fields _
theorem rdIrqEn : Statement .rdIrqEn := all_fields _
theorem wrIrqEn (d : Word) : Statement (.wrIrqEn d) := all_fields _
theorem rdWinOrg : Statement .rdWinOrg := all_fields _
theorem wrWinOrg (d : Word) : Statement (.wrWinOrg d) := all_fields _
theorem rdWinSize : Statement .rdWinSize := all_fields _
theorem wrWinSize (d : Word) : Statement (.wrWinSize d) := all_fields _
theorem rd8Fb (off : FbOff) : Statement (.rd8Fb off) := all_fields _
theorem rd16Fb (off : FbOff) : Statement (.rd16Fb off) := all_fields _
theorem rd32Fb (off : FbOff) : Statement (.rd32Fb off) := all_fields _
theorem wr8Fb (off : FbOff) (d : Word) : Statement (.wr8Fb off d) := all_fields _
theorem wr16Fb (off : FbOff) (d : Word) : Statement (.wr16Fb off d) := all_fields _
theorem wr32Fb (off : FbOff) (d : Word) : Statement (.wr32Fb off d) := all_fields _

end Sys2Proof.Laws.EncodeFields
end

