-- ==== Sys2Proof/Laws/Run.lean ====
section
/-! SUPPORT. Runs of steps and of engine turns, one step at a time and in two parts. -/

namespace Sys2Proof.Machine

variable {s t : State} {n : Nat}

theorem core_run_zero (s : State) : Sys2Proof.core.run 0 s = .next s := rfl

theorem core_run_next (h : step s = .next t) :
    Sys2Proof.core.run (n + 1) s = Sys2Proof.core.run n t := by
  have h' : Sys2Proof.core.step s = .next t := h
  simp [Host.Core.run, h']

theorem core_run_fault {f : Fault} (h : step s = .fault f) :
    Sys2Proof.core.run (n + 1) s = .fault f := by
  have h' : Sys2Proof.core.step s = .fault f := h
  simp [Host.Core.run, h']

theorem engineRun_next (h : engineStep s = .next t) : engineRun (n + 1) s = engineRun n t := by
  simp [engineRun, h]

theorem engineRun_fault {f : Fault} (h : engineStep s = .fault f) :
    engineRun (n + 1) s = .fault f := by
  simp [engineRun, h]

/-- A run of `m + n` engine turns that gets through its first `m`. -/
theorem engineRun_add {m : Nat} : ∀ {s t : State}, engineRun m s = .next t →
    engineRun (m + n) s = engineRun n t := by
  induction m with
  | zero => intro s t h; cases h; rw [Nat.zero_add]
  | succ m ih =>
    intro s t h
    rw [Nat.succ_add]
    simp only [engineRun] at h ⊢
    cases he : engineStep s with
    | next u => rw [he] at h; exact ih h
    | fault f => rw [he] at h; cases h
    | refused r => rw [he] at h; cases h

end Sys2Proof.Machine
end

