-- ==== Sys2Proof/Tests/Slice0.lean ====
section
/-! SUPPORT. Tests, with expected values from the spec's examples and vectors (95_test_vectors.md), and for
each statement that has hypotheses a witness that meets them together. -/

namespace Sys2Proof.Tests

open Sys2Proof Sys2Proof.Machine

/-! ## Well-formedness: each check refuses an ill-formed term -/

theorem test_wellFormed_refuses_odd_halfword_read : (Instr.rd16Fb 0x0001).wellFormed = false := by decide
theorem test_wellFormed_refuses_odd_halfword_write :
    (Instr.wr16Fb 0x7FFF 0).wellFormed = false := by decide
theorem test_wellFormed_refuses_unaligned_word_read : (Instr.rd32Fb 0x0002).wellFormed = false := by decide
theorem test_wellFormed_refuses_unaligned_word_write :
    (Instr.wr32Fb 0x7FFD 0).wellFormed = false := by decide

/-! ## Decode: descriptors written out as WR, SIZE, ADDR (R91 to R93, R22) -/

theorem test_decode_register_reads :
    decode ⟨0b0100000000000000000, 5⟩ = .ok .rdId ∧
    decode ⟨0b0100000000000000100, 5⟩ = .ok .rdGeom ∧
    decode ⟨0b0100000000000001000, 5⟩ = .ok .rdCtrl ∧
    decode ⟨0b0100000000000001100, 5⟩ = .ok .rdStatus ∧
    decode ⟨0b0100000000000010000, 5⟩ = .ok .rdIrqEn ∧
    decode ⟨0b0100000000000010100, 5⟩ = .ok .rdWinOrg ∧
    decode ⟨0b0100000000000011000, 5⟩ = .ok .rdWinSize := by decide

theorem test_decode_register_writes :
    decode ⟨0b1100000000000000000, 5⟩ = .ok (.wrId 5) ∧
    decode ⟨0b1100000000000000100, 5⟩ = .ok (.wrGeom 5) ∧
    decode ⟨0b1100000000000001000, 5⟩ = .ok (.wrCtrl 5) ∧
    decode ⟨0b1100000000000001100, 5⟩ = .ok (.wrStatus 5) ∧
    decode ⟨0b1100000000000010000, 5⟩ = .ok (.wrIrqEn 5) ∧
    decode ⟨0b1100000000000010100, 5⟩ = .ok (.wrWinOrg 5) ∧
    decode ⟨0b1100000000000011000, 5⟩ = .ok (.wrWinSize 5) := by decide

/-- Pixel (3, 2) is at `0x840C`, offset `0x040C` (FV-7). -/
theorem test_decode_frame_reads :
    decode ⟨0b0001000010000001111, 5⟩ = .ok (.rd8Fb 0x040F) ∧
    decode ⟨0b0011000010000001110, 5⟩ = .ok (.rd16Fb 0x040E) ∧
    decode ⟨0b0101000010000001100, 5⟩ = .ok (.rd32Fb 0x040C) := by decide

theorem test_decode_frame_writes :
    decode ⟨0b1001000010000001111, 5⟩ = .ok (.wr8Fb 0x040F 5) ∧
    decode ⟨0b1011000010000001110, 5⟩ = .ok (.wr16Fb 0x040E 5) ∧
    decode ⟨0b1101000010000001100, 5⟩ = .ok (.wr32Fb 0x040C 5) := by decide

/-- EV-4 to EV-10, EV-14, EV-16, FV-12 to FV-14. -/
theorem test_decode_illegal :
    decode ⟨0x2001C, 0⟩ = .error .unmapped ∧ decode ⟨0x27FFC, 0⟩ = .error .unmapped ∧
    decode ⟨0x0000C, 0⟩ = .error .registerSize ∧ decode ⟨0x1000C, 0⟩ = .error .registerSize ∧
    decode ⟨0x2000E, 0⟩ = .error .misalignedRegister ∧
    decode ⟨0x3000C, 0⟩ = .error .reservedSize ∧ decode ⟨0x7FFFF, 0⟩ = .error .reservedSize ∧
    decode ⟨0x5FFFF, 0⟩ = .error .misalignedFrame ∧ decode ⟨0x6FFFE, 0⟩ = .error .misalignedFrame ∧
    decode ⟨0x18001, 0⟩ = .error .misalignedFrame ∧ decode ⟨0x28002, 0⟩ = .error .misalignedFrame ∧
    decode ⟨0x68001, 0⟩ = .error .misalignedFrame := by decide

theorem test_encode_spec_words :
    encode (.wrCtrl 1) = ⟨0x60008, 1⟩ ∧ encode (.wr8Fb 0x040F 0x1FF) = ⟨0x4840F, 0x1FF⟩ ∧
    encode (.wr32Fb 0x7FFC 0x12345678) = ⟨0x6FFFC, 0x12345678⟩ := by decide

/-- R101's example `WR32 CTRL, 1`, `FB(x, y, c)` of FV-8, and a read with its expected value. -/
theorem test_assembler_lines :
    (AsmLine.wr32 (.symbol (.reg .ctrl)) 1 "start").txn = ⟨0x60008, 1⟩ ∧
    (AsmLine.wr8 (.symbol (.channel 3 2 3)) 0x1FF "").txn = ⟨0x4840F, 0x1FF⟩ ∧
    (AsmLine.rd32 (.number 0x000C) (some 2) "").txn = ⟨0x2000C, 0⟩ ∧
    (AsmLine.rd32 (.number 0x000C) (some 2) "").expect ⟨false, 2⟩ = true := by decide

theorem test_decodeTableWord :
    decodeTableWord 24 0x6000C = some (.wrStatus 0) ∧ decodeTableWord 24 0x2840C = some (.rd32Fb 0x040C) ∧
    decodeTableWord 24 0x30000 = none ∧ decodeTableWord 24 0xA0000 = none := by decide

/-! ## Small states -/

/-- The frame memory of a 2x2 window at the origin, every pixel `(128, 128, 128, 255)` (DV-2). -/
def frame2x2 : Memory :=
  memWrite (memWrite (memWrite (memWrite [] 0 4 0xFF808080) 4 4 0xFF808080) 512 4 0xFF808080)
    516 4 0xFF808080

/-- Idle, with pixel (0, 0) = (16, 32, 48, 64) and pixel (3, 2) = (1, 2, 3, 4) (section 2.3). -/
def idle : State :=
  { State.reset with fb := memWrite (memWrite [] 0 4 0x40302010) 0x40C 4 0x04030201 }

/-- Idle, with a window set. -/
def windowed (x0 : BitVec 7) (y0 : BitVec 6) (w : BitVec 8) (h : BitVec 7) : State :=
  { State.reset with fb := frame2x2, winOrg := ⟨x0, y0⟩, winSize := ⟨w, h⟩ }

/-- The operation of DV-2, just accepted. -/
def started : State :=
  { State.reset with
    fb := frame2x2, winSize := ⟨2, 2⟩, latch := ⟨0, 0, 2, 2⟩, phase := .luma
    status := ⟨true, false, false, false, false⟩ }

/-- The operation of DV-2 at its first visit. -/
def visiting : State :=
  { started with phase := .diffuse, gw := [(0, 12800), (1, 12800), (256, 12800), (257, 12800)] }

/-- The operation of DV-2 at its second visit, the end of a row. -/
def rowEnd : State :=
  { visiting with cx := 1, gw := [(0, 12800), (1, 7244), (256, 8832), (257, 12007)] }

/-- The operation of DV-2 after its fourth visit. -/
def visited : State := { visiting with cx := 0, cy := 2 }

/-- One step, the host presenting a transaction. -/
def presenting (s : State) (td : TD) (d : Word) : Host.Outcome State Fault Refusal :=
  step { s with hostQueue := [⟨td, d⟩], turns := [.host] }

/-- The state after a step. -/
def next : Host.Outcome State Fault Refusal → Option State
  | .next t => some t
  | .fault _ => none
  | .refused _ => none

/-- The fault a step ends in. -/
def fault : Host.Outcome State Fault Refusal → Option Fault
  | .next _ => none
  | .fault f => some f
  | .refused _ => none

/-- What a host sees after a step: the response, the STATUS word and the `irq` level. -/
def seen : Host.Outcome State Fault Refusal → Option (Option Response × Word × Bool)
  | .next t => some (t.response, t.status.word, t.irq)
  | .fault _ => none
  | .refused _ => none

/-- What the programmer finds in the window registers after a step. -/
def window : Host.Outcome State Fault Refusal → Option (Word × Word)
  | .next t => some (t.winOrg.word, t.winSize.word)
  | .fault _ => none
  | .refused _ => none

/-- The word of a pixel after a step. -/
def pixel (a : Nat) : Host.Outcome State Fault Refusal → Option Word
  | .next t => memRead t.fb a 4
  | .fault _ => none
  | .refused _ => none

/-! ## Register transactions -/

/-- RV-1. -/
theorem test_rd_id : seen (presenting idle 0x20000 0) = some (some ⟨false, 0x44495448⟩, 0, false) := by
  decide
/-- RV-2. -/
theorem test_wr_id :
    next (presenting idle 0x60000 0xFFFFFFFF) = some { idle with response := some ⟨false, 0⟩ } := by
  decide
/-- RV-3. -/
theorem test_rd_geom : seen (presenting idle 0x20004 0) = some (some ⟨false, 0x00400080⟩, 0, false) := by
  decide
theorem test_wr_geom :
    next (presenting idle 0x60004 0) = some { idle with response := some ⟨false, 0⟩ } := by
  decide
/-- RV-4, in an operation. -/
theorem test_rd_ctrl : seen (presenting started 0x20008 0) = some (some ⟨false, 0⟩, 1, false) := by decide
/-- RV-10: accepted. -/
theorem test_wr_ctrl_accepted :
    seen (presenting (windowed 100 0 28 1) 0x60008 1) = some (some ⟨false, 0⟩, 1, false) := by decide
/-- RV-9: refused. -/
theorem test_wr_ctrl_refused :
    seen (presenting (windowed 100 0 29 1) 0x60008 1) = some (some ⟨false, 0⟩, 4, false) := by decide
theorem test_rd_status : seen (presenting started 0x2000C 0) = some (some ⟨false, 1⟩, 1, false) := by decide
/-- RV-18. -/
theorem test_wr_status_one_bit :
    seen (presenting { idle with status := ⟨false, true, false, true, false⟩ } 0x6000C 8) =
      some (some ⟨false, 0⟩, 2, false) := by decide
/-- RV-19. -/
theorem test_wr_status_keeps_busy :
    seen (presenting { started with status := ⟨true, true, true, true, true⟩ } 0x6000C 0xFFFFFFFF) =
      some (some ⟨false, 0⟩, 1, false) := by decide
/-- RV-21. -/
theorem test_rd_irq_en :
    seen (presenting { idle with irqEn := ⟨true, true, true, true⟩ } 0x20010 0) =
      some (some ⟨false, 0x1E⟩, 0, false) := by decide
/-- RV-22. -/
theorem test_wr_irq_en :
    seen (presenting { idle with status := ⟨false, true, false, false, false⟩ } 0x60010 2) =
      some (some ⟨false, 0⟩, 2, true) := by decide
/-- RV-6. -/
theorem test_rd_win_org :
    seen (presenting (windowed 127 63 1 0) 0x20014 0) = some (some ⟨false, 0x003F007F⟩, 0, false) := by
  decide
/-- RV-7. -/
theorem test_wr_win_org :
    window (presenting (windowed 5 5 1 1) 0x60014 0x00400080) = some (0, 0x00010001) := by decide
/-- RV-5. -/
theorem test_rd_win_size :
    seen (presenting State.reset 0x20018 0) = some (some ⟨false, 0x00400080⟩, 0, false) := by decide
/-- RV-8. -/
theorem test_wr_win_size :
    window (presenting idle 0x60018 0xFFFFFFFF) = some (0, 0x007F00FF) := by decide

/-! ## Frame-memory transactions -/

/-- FV-2. -/
theorem test_rd8_fb : seen (presenting idle 0x08001 0) = some (some ⟨false, 0x20⟩, 0, false) := by decide
/-- FV-5. -/
theorem test_rd16_fb : seen (presenting idle 0x18002 0) = some (some ⟨false, 0x4030⟩, 0, false) := by decide
/-- FV-7. -/
theorem test_rd32_fb : seen (presenting idle 0x2840C 0) = some (some ⟨false, 0x04030201⟩, 0, false) := by
  decide
/-- FV-15. -/
theorem test_rd32_fb_busy : seen (presenting started 0x28000 0) = some (some ⟨true, 0⟩, 0x11, false) := by
  decide
/-- FV-8. -/
theorem test_wr8_fb : pixel 0x40C (presenting idle 0x4840F 0x1FF) = some 0xFF030201 := by decide
/-- FV-16. -/
theorem test_wr8_fb_busy : seen (presenting started 0x48001 0xFF) = some (some ⟨true, 0⟩, 0x11, false) := by
  decide
/-- FV-10. -/
theorem test_wr16_fb : pixel 0 (presenting idle 0x58002 0x7F55) = some 0x7F552010 := by decide
/-- FV-11. -/
theorem test_wr32_fb : pixel 0x7FFC (presenting idle 0x6FFFC 0x12345678) = some 0x12345678 := by decide
/-- FV-19's pixel, by one byte. -/
theorem test_rd8_fb_unwritten :
    fault (presenting State.reset 0x08A14 0) = some .unwrittenHostRead := by decide
/-- FV-17: alignment is checked before the interlock. -/
theorem test_illegal_sets_no_status_bit :
    seen (presenting started 0x28002 0) = some (some ⟨true, 0⟩, 1, false) := by decide

/-! ## The engine -/

/-- R118's example. -/
theorem test_luma_step :
    next (engineStep started) = some { started with gw := [(0, 12800)], cx := 1 } := by decide
/-- R119's example, and DV-2's first visit. -/
theorem test_visit_step_shares :
    (next (engineStep visiting)).map (fun t => (t.gw, t.cx, t.cy)) =
      some ([(0, 12800), (1, 7244), (256, 8832), (257, 12007)], 1, 0) := by decide
theorem test_visit_step_paints : pixel 0 (engineStep visiting) = some 0xFFFFFFFF := by decide
/-- R121's example. -/
theorem test_complete_step :
    next (engineStep visited) = some { visited with phase := .idle, status := ⟨false, true, false, false, false⟩ } := by
  decide
/-- DV-10. -/
theorem test_shares_round_toward_zero :
    ([7, 3, 5, 1] : List Int).map (fun k => shareOf k (-12700)) = [-5556, -2381, -3968, -793] ∧
    ([7, 3, 5, 1] : List Int).map (fun k => shareOf k (-3)) = [-1, 0, 0, 0] ∧
    ([7, 3, 5, 1] : List Int).map (fun k => shareOf k 15) = [6, 2, 4, 0] := by decide
/-- DV-1, cases 1, 2, 6 and 7. -/
theorem test_threshold_and_weights :
    (luminance 127 127 127, level 12700, quantError 12700) = (12700, 255, -12800) ∧
    (luminance 126 126 126, level 12600, quantError 12600) = (12600, 0, 12600) ∧
    luminance 128 127 126 = 12719 ∧ luminance 200 100 50 = 12450 := by decide
/-- DV-2. -/
theorem test_ditherRef : ditherRef frame2x2 ⟨0, 0, 2, 2⟩ =
    some (memWrite (memWrite (memWrite (memWrite [] 0 4 0xFFFFFFFF) 4 4 0xFF000000) 512 4 0xFF000000)
      516 4 0xFFFFFFFF) := by decide
/-- DV-11: no clamp. -/
theorem test_ditherRef_no_clamp :
    ditherRef (memWrite (memWrite (memWrite [] 0 4 0x7E7E7E) 4 4 0xFFFFFF) 8 4 0xFFFFFF) ⟨0, 0, 3, 1⟩ =
      some (memWrite (memWrite (memWrite [] 0 4 0) 4 4 0xFFFFFF) 8 4 0xFFFFFF) := by decide

/-! ## Steps -/

/-- A table word placed by `withFetchWord` is what the next step from reset performs. -/
theorem test_withFetchWord :
    seen (step (State.reset.withFetchWord 24 0x20000)) = some (some ⟨false, 0x44495448⟩, 0, false) := by
  decide
/-- Reset in an operation (R242). -/
theorem test_reset_ends_operation :
    next (step { started with turns := [.assertReset] }) = some { State.reset with rstN := false } := by decide
/-- With no turn laid down the engine moves while BUSY = 1 (log entry 1). -/
theorem test_default_turn_is_the_engine :
    next (step { started with hostQueue := [⟨0x2000C, 0⟩] }) =
      some { started with hostQueue := [⟨0x2000C, 0⟩], gw := [(0, 12800)], cx := 1 } := by decide

/-! ## Witnesses: a state and operands that meet each statement's hypotheses together -/

/-- A transaction waiting, the host's turn next. -/
def hostNext (s : State) (td : TD) (d : Word) : State :=
  { s with hostQueue := [⟨td, d⟩], turns := [.host] }

theorem started_inv : started.Inv where
  busyIffActive := by decide
  fbWf := by decide
  gwSorted := by decide
  latchFits := by unfold Latch.fits; decide
  cursorRange := by decide
  lumaCursor := by decide
  diffuseCursor := by decide
  lumaWritten := by
    intro _ j i _ h
    simp [before, started, State.reset] at h
  diffuseWritten := by intro h; cases h
  heldInReset := by decide

theorem visiting_inv : visiting.Inv where
  busyIffActive := by decide
  fbWf := by decide
  gwSorted := by decide
  latchFits := by unfold Latch.fits; decide
  cursorRange := by decide
  lumaCursor := by decide
  diffuseCursor := by decide
  lumaWritten := by intro h; cases h
  diffuseWritten := by
    intro _ j i hj hi
    have hj : j < 2 := hj
    have hi : i < 2 := hi
    interval_cases j <;> interval_cases i <;> decide
  heldInReset := by decide

theorem visiting_grayInv : visiting.GrayInv where
  range := by decide
  luma := by intro h; cases h
  diffuse := by
    intro _ j i hj hi
    have hj : j < 2 := hj
    have hi : i < 2 := hi
    interval_cases j <;> interval_cases i <;> decide

theorem rowEnd_inv : rowEnd.Inv where
  busyIffActive := by decide
  fbWf := by decide
  gwSorted := by decide
  latchFits := by unfold Latch.fits; decide
  cursorRange := by decide
  lumaCursor := by decide
  diffuseCursor := by decide
  lumaWritten := by intro h; cases h
  diffuseWritten := by
    intro _ j i hj hi
    have hj : j < 2 := hj
    have hi : i < 2 := hi
    interval_cases j <;> interval_cases i <;> decide
  heldInReset := by decide

theorem rowEnd_grayInv : rowEnd.GrayInv where
  range := by decide
  luma := by intro h; cases h
  diffuse := by
    intro _ j i hj hi
    have hj : j < 2 := hj
    have hi : i < 2 := hi
    interval_cases j <;> interval_cases i <;> decide

theorem witness_DecodeOfEncode :
    (Instr.wr32Fb 0x7FFC 1).wellFormed = true ∧ (Instr.rd16Fb 0x7FFE).wellFormed = true := by decide

theorem witness_EncodeOfDecode : decode ⟨0x6FFFC, 1⟩ = .ok (.wr32Fb 0x7FFC 1) := by decide

theorem witness_DecodeAgreesWithOpcodeTable :
    decode ⟨0x4FFFF, 1⟩ = .ok (.wr8Fb 0x7FFF 1) ∧
    (⟨"WR8_FB", 0x48000, 0x78000⟩ : OpcodeRow) ∈ opcodeRows ∧
    OpcodeRow.matches ⟨"WR8_FB", 0x48000, 0x78000⟩ 0x4FFFF = true := by decide

/-- One descriptor for each way to be illegal, at the ends of its range; one presented while BUSY at a turn
laid down, and one in an idle block with no turn laid down. -/
theorem witness_IllegalTransactions :
    decode ⟨0x30000, 0⟩ = .error .reservedSize ∧ decode ⟨0x7FFFF, 0⟩ = .error .reservedSize ∧
    decode ⟨0x00000, 0⟩ = .error .registerSize ∧ decode ⟨0x17FFF, 0⟩ = .error .registerSize ∧
    decode ⟨0x20001, 0⟩ = .error .misalignedRegister ∧ decode ⟨0x2001B, 0⟩ = .error .misalignedRegister ∧
    decode ⟨0x2001C, 0⟩ = .error .unmapped ∧ decode ⟨0x27FFC, 0⟩ = .error .unmapped ∧
    decode ⟨0x18001, 0⟩ = .error .misalignedFrame ∧ decode ⟨0x5FFFF, 0⟩ = .error .misalignedFrame ∧
    decode ⟨0x28001, 0⟩ = .error .misalignedFrame ∧ decode ⟨0x6FFFE, 0⟩ = .error .misalignedFrame ∧
    (hostNext started 0x28002 0).rstN = true ∧ started.status.busy = true ∧
    (hostNext started 0x28002 0).turns = .host :: [] ∧
    idle.rstN = true ∧ idle.turns = [] ∧
    engineEnabled { idle with hostQueue := [⟨0x28002, 0⟩] } = false ∧
    decode ⟨0x28002, 0⟩ = .error .misalignedFrame := by decide

theorem witness_FrameAddressNamesPixelAndChannel :
    (127 < 128 ∧ 63 < 64 ∧ 3 < 4) ∧ fbOffOf (fbChannelSymbol 127 63 3) = 0x7FFF := by decide

theorem witness_PseudoInstructionsExpand :
    (127 < 128 ∧ 63 < 64) ∧ (0x7FFC : FbOff).toNat = 4 * (63 * 128 + 127) := by decide

theorem witness_StepPerformsTheTurn_host :
    (hostNext started 0x2000C 0).rstN = true ∧
    (hostNext started 0x2000C 0).hostQueue = ⟨0x2000C, 0⟩ :: [] ∧ decode ⟨0x2000C, 0⟩ = .ok .rdStatus ∧
    (hostNext started 0x2000C 0).turns = .host :: [] := by decide

theorem witness_StepPerformsTheTurn_defaults :
    idle.turns = [] ∧ engineEnabled { idle with hostQueue := [⟨0x2000C, 0⟩] } = false ∧
    ({ started with turns := [.engine] } : State).turns = .engine :: [] ∧ started.turns = [] ∧
    engineEnabled started = true := by decide

theorem witness_ResetPin :
    ({ started with turns := [.assertReset] } : State).turns = .assertReset :: [] ∧
    (∀ u ∈ [Turn.host, .engine, .releaseReset],
      ({ resetBlock false started with turns := [u] } : State).rstN = false ∧
      ({ resetBlock false started with turns := [u] } : State).turns = u :: []) := by decide

theorem witness_ResetEndsOperation :
    ({ started with turns := [.assertReset, .releaseReset, .assertReset, .releaseReset] } : State).turns =
      .assertReset :: .releaseReset :: .assertReset :: .releaseReset :: [] := by decide

theorem witness_IdleBlockKeepsItsState :
    idle.status.busy = false ∧ idle.turns = [] ∧ idle.hostQueue = [] ∧ idle.final = true := by decide

theorem witness_ReadOnlyRegisterWrites :
    next (exec (.wrId 1) idle) = some { idle with response := some ⟨false, 0⟩ } ∧
    next (exec (.wrGeom 1) idle) = some { idle with response := some ⟨false, 0⟩ } := by decide

theorem witness_StatusAndIrqEnReads : 5 ≤ 31 ∧ (31 : Nat) < 32 := by decide

/-- A write without START; START while BUSY; START of windows that do not fit by one column and by one row;
of an empty window at the frame's corner; of a window that ends exactly there. -/
theorem witness_CtrlWriteOutcomes :
    (0xFFFFFFFE : Word).getLsbD 0 = false ∧ (1 : Word).getLsbD 0 = true ∧ started.status.busy = true ∧
    (windowed 127 62 2 2).status.busy = false ∧
    ¬((windowed 127 62 2 2).winOrg.x0.toNat + (windowed 127 62 2 2).winSize.w.toNat ≤ 128) ∧
    ¬((windowed 127 62 1 3).winOrg.y0.toNat + (windowed 127 62 1 3).winSize.h.toNat ≤ 64) ∧
    ((windowed 127 63 1 0).winOrg.x0.toNat + (windowed 127 63 1 0).winSize.w.toNat ≤ 128 ∧
      (windowed 127 63 1 0).winOrg.y0.toNat + (windowed 127 63 1 0).winSize.h.toNat ≤ 64 ∧
      (windowed 127 63 1 0).winSize.h = 0) ∧
    ((windowed 127 63 1 1).winOrg.x0.toNat + (windowed 127 63 1 1).winSize.w.toNat ≤ 128 ∧
      (windowed 127 63 1 1).winOrg.y0.toNat + (windowed 127 63 1 1).winSize.h.toNat ≤ 64 ∧
      (windowed 127 63 1 1).winSize.w ≠ 0 ∧ (windowed 127 63 1 1).winSize.h ≠ 0) := by decide

/-- A state for each of the outcomes that set a bit. -/
theorem witness_StartReportsOneOutcome :
    seen (exec (.wrCtrl 1) started) = some (some ⟨false, 0⟩, 0x9, false) ∧
    seen (exec (.wrCtrl 1) (windowed 127 63 2 1)) = some (some ⟨false, 0⟩, 0x4, false) ∧
    seen (exec (.wrCtrl 1) (windowed 127 63 1 0)) = some (some ⟨false, 0⟩, 0x2, false) := by decide

theorem witness_RegisterTransactionsAnswerOk :
    inAperture (Instr.rdWinSize).addr = false ∧ inAperture (Instr.wrCtrl 1).addr = false ∧
    (Instr.wrCtrl 1).isWrite = true := by decide

/-- A register read, a frame read, and a frame read while BUSY, each with a next state. -/
theorem witness_ReadsHaveNoOtherSideEffect :
    Instr.rdStatus.isWrite = false ∧ (Instr.rd32Fb 0).isWrite = false ∧
    (seen (exec .rdStatus started)).isSome = true ∧ (seen (exec (.rd32Fb 0) idle)).isSome = true ∧
    (seen (exec (.rd32Fb 0) started)).isSome = true := by decide

theorem witness_RepeatedTransactionsIdempotent :
    Memory.wf idle.fb ∧ (seen (exec (.wr32Fb 0x7FFC 1) idle)).isSome = true ∧
    (seen (exec (.wrStatus 0x1E) idle)).isSome = true := by decide

theorem witness_ErrAndWriteResponsesCarryZero :
    seen (exec (.rd8Fb 0x7FFF) started) = some (some ⟨true, 0⟩, 0x11, false) ∧
    seen (exec (.wr8Fb 0x7FFF 1) idle) = some (some ⟨false, 0⟩, 0, false) := by decide

theorem witness_FrameReads :
    idle.status.busy = false ∧ readByte idle.fb (0x40C : FbOff).toNat = some 1 ∧
    readByte idle.fb ((0x40C : FbOff).toNat + 1) = some 2 ∧
    readByte idle.fb ((0x40C : FbOff).toNat + 2) = some 3 ∧
    readByte idle.fb ((0x40C : FbOff).toNat + 3) = some 4 ∧ started.status.busy = true := by decide

/-- Unwritten bytes just before and just after a pixel that is written. -/
theorem witness_UnwrittenFrameReadFaults :
    idle.status.busy = false ∧ readByte idle.fb 0x40B = none ∧ readByte idle.fb 0x410 = none ∧
    fault (exec (.rd16Fb 0x40B) idle) = some .unwrittenHostRead ∧
    fault (exec (.rd32Fb 0x40D) idle) = some .unwrittenHostRead ∧
    fault (exec (.rd32Fb 0x40C) idle) = none := by decide

theorem witness_FrameWrites :
    idle.status.busy = false ∧ started.status.busy = true ∧
    ((Instr.wr32Fb 0x7FFC 1, 4) : Instr × Nat) ∈
      [(Instr.wr8Fb 0x7FFC 1, 1), (.wr16Fb 0x7FFC 1, 2), (.wr32Fb 0x7FFC 1, 4)] := by decide

theorem witness_FrameAccessRefusedWhileBusy :
    inAperture (Instr.wr16Fb 0x7FFE 1).addr = true ∧ started.status.busy = true := by decide

theorem witness_MixedWidthReadsSeeTheSameBytes :
    idle.status.busy = false ∧ aligned4 0x7FFC = true ∧
    pixel 0x7FFC (exec (.wr32Fb 0x7FFC 0x12345678) idle) = some 0x12345678 ∧
    (2 : BitVec 15).toNat = 2 ∧ (3 : BitVec 15).toNat < 4 := by decide

theorem witness_NarrowWritesIgnoreUpperData :
    (0xABCD2010 : Word).extractLsb' 0 8 = (0x10 : Word).extractLsb' 0 8 ∧
    (0xABCD2010 : Word).extractLsb' 0 16 = (0x2010 : Word).extractLsb' 0 16 := by decide

/-- A pending bit with its enable, and the two writes that lower `irq`. -/
theorem witness_IrqLevel :
    let s : State := { idle with status := ⟨false, true, false, false, true⟩, irqEn := ⟨true, false, false, true⟩ }
    s.irq = true ∧ (seen (exec (.wrStatus 0x1E) s)).isSome = true ∧
      (seen (exec (.wrIrqEn 0) s)).isSome = true := by decide

/-- Each sticky bit set by its event, and one cleared. -/
theorem witness_TransactionsChangeStickyBitsOnlyByTheirEvents :
    seen (exec (.wrCtrl 1) (windowed 127 63 1 0)) = some (some ⟨false, 0⟩, 2, false) ∧
    seen (exec (.wrCtrl 1) (windowed 127 63 2 1)) = some (some ⟨false, 0⟩, 4, false) ∧
    seen (exec (.wrCtrl 1) started) = some (some ⟨false, 0⟩, 9, false) ∧
    seen (exec (.rd8Fb 0) started) = some (some ⟨true, 0⟩, 0x11, false) ∧
    seen (exec (.wrStatus 2) { idle with status := ⟨false, true, true, true, true⟩ }) =
      some (some ⟨false, 0⟩, 0x1C, false) := by decide

/-- BUSY falls by completion, and by reset. -/
theorem witness_BusyFallsOnlyAtCompletionOrReset :
    visited.status.busy = true ∧ (seen (step visited)).map (fun x => x.2.1) = some 2 ∧
    (seen (step { started with turns := [.assertReset] })).map (fun x => x.2.1) = some 0 := by decide

/-- A register write and a refused frame write, while BUSY. -/
theorem witness_NoTransactionTouchesARunningOperation :
    started.status.busy = true ∧ (seen (exec (.wrWinSize 0) started)).isSome = true ∧
    (seen (exec (.wr8Fb 0 0) started)).isSome = true := by decide

theorem witness_TdivRoundsTowardZero :
    (0 : Int) < 16 ∧ tdiv 21732 16 = 1358 ∧ tdiv (-88900) 16 = -5556 ∧ tdiv (-15) 16 = 0 := by decide

theorem witness_LuminanceAndThreshold : (12699 : Int) < 12700 ∧ (12700 : Int) ≤ 12700 := by decide

theorem witness_SharesNeverAmplify : (7 : Int) ∈ [7, 3, 5, 1] ∧ (0 : Int) ≤ 0 ∧ (-3 : Int) ≤ 0 := by decide

/-- The cursor inside a row, at a row's end, and at the last pixel. -/
theorem witness_LumaStepResult :
    started.rstN = true ∧ started.status.busy = true ∧ started.phase = .luma ∧ started.cx < 256 ∧
    readByte started.fb 0 = some 128 ∧ readByte started.fb 1 = some 128 ∧ readByte started.fb 2 = some 128 ∧
    (started.cx + 1 ≠ started.latch.aw.toNat ∧ started.cy ≠ started.latch.ah.toNat) ∧
    (let s : State := { started with cx := 1 }
     s.cx + 1 = s.latch.aw.toNat ∧ s.cy + 1 ≠ s.latch.ah.toNat) ∧
    (let s : State := { started with cx := 1, cy := 1 }
     s.cx + 1 = s.latch.aw.toNat ∧ s.cy + 1 = s.latch.ah.toNat ∧ readByte s.fb (4 * 129) = some 128) := by
  decide

/-- A pixel with its B byte not written, and one with all written. -/
theorem witness_UnwrittenLumaReadFaults :
    started.rstN = true ∧ started.status.busy = true ∧ started.phase = .luma ∧
    fault (engineStep { started with fb := memWrite [] 0 2 0x8080 }) = some .unwrittenLumaRead ∧
    fault (engineStep started) = none := by decide

/-- Visits inside a row and at a row's end. -/
theorem witness_VisitStepResult :
    (visiting.Inv ∧ visiting.GrayInv ∧ visiting.rstN = true ∧ visiting.phase = .diffuse ∧
      visiting.cy < visiting.latch.ah.toNat ∧ visiting.cx + 1 ≠ visiting.latch.aw.toNat) ∧
    (rowEnd.Inv ∧ rowEnd.GrayInv ∧ rowEnd.rstN = true ∧ rowEnd.phase = .diffuse ∧
      rowEnd.cy < rowEnd.latch.ah.toNat ∧ rowEnd.cx + 1 = rowEnd.latch.aw.toNat) :=
  ⟨⟨visiting_inv, visiting_grayInv, by decide, by decide, by decide, by decide⟩,
    rowEnd_inv, rowEnd_grayInv, by decide, by decide, by decide, by decide⟩

theorem witness_CompleteStepResult :
    visited.rstN = true ∧ visited.status.busy = true ∧ visited.phase = .diffuse ∧
    visited.cy = visited.latch.ah.toNat := by decide

/-- A next state and a fault of the engine. -/
theorem witness_EngineReadsOnlyTheLatch :
    (next (engineStep visiting)).isSome = true ∧
    fault (engineStep { started with fb := [] }) = some .unwrittenLumaRead := by decide

theorem witness_StepKeepsInv :
    started.Inv ∧ (next (step started)).isSome = true ∧ visiting.Inv ∧
    (next (step visiting)).isSome = true :=
  ⟨started_inv, by decide, visiting_inv, by decide⟩

theorem witness_StepKeepsBusyIffActive :
    (started.status.busy = true ↔ started.phase ≠ .idle) ∧ (next (step started)).isSome = true := by decide

theorem witness_StepKeepsGrayRange :
    visiting.Inv ∧ visiting.GrayInv ∧ (next (step visiting)).isSome = true :=
  ⟨visiting_inv, visiting_grayInv, by decide⟩

theorem witness_VisitErrorBound :
    visiting.Inv ∧ visiting.GrayInv ∧ visiting.phase = .diffuse ∧
    visiting.cy < visiting.latch.ah.toNat :=
  ⟨visiting_inv, visiting_grayInv, by decide, by decide⟩

theorem witness_PassLengths :
    started.Inv ∧ started.rstN = true ∧ started.phase = .luma ∧ started.cx = 0 ∧ started.cy = 0 ∧
    (ditherRef started.fb started.latch).isSome = true :=
  ⟨started_inv, by decide, by decide, by decide, by decide, by decide⟩

/-- The reference answers on the frame of DV-2, and does not where a colour byte is not written. -/
theorem witness_EngineComputesDitherRef :
    started.Inv ∧ started.rstN = true ∧ started.phase = .luma ∧ started.cx = 0 ∧ started.cy = 0 ∧
    (ditherRef started.fb started.latch).isSome = true ∧ ditherRef [] started.latch = none :=
  ⟨started_inv, by decide, by decide, by decide, by decide, by decide, by decide⟩

/-- A START of the 2x2 window, with a poll queued behind it. -/
def startWaiting : State := { windowed 0 0 2 2 with hostQueue := [⟨0x60008, 1⟩, ⟨0x2000C, 0⟩] }

theorem startWaiting_inv : startWaiting.Inv where
  busyIffActive := by decide
  fbWf := by decide
  gwSorted := by decide
  latchFits := by unfold Latch.fits; decide
  cursorRange := by decide
  lumaCursor := by decide
  diffuseCursor := by decide
  lumaWritten := by intro h; cases h
  diffuseWritten := by intro h; cases h
  heldInReset := by decide

theorem witness_AcceptedStartDithersTheWindow :
    startWaiting.Inv ∧ startWaiting.rstN = true ∧ startWaiting.turns = [] ∧
    startWaiting.hostQueue = ⟨0x60008, 1⟩ :: [⟨0x2000C, 0⟩] ∧ decode ⟨0x60008, 1⟩ = .ok (.wrCtrl 1) ∧
    (1 : Word).getLsbD 0 = true ∧ startWaiting.status.busy = false ∧
    (ditherRef startWaiting.fb ⟨0, 0, 2, 2⟩).isSome = true :=
  ⟨startWaiting_inv, by decide, by decide, by decide, by decide, by decide, by decide, by decide⟩

theorem witness_OperationEnds : started.Inv ∧ started.rstN = true ∧ started.status.busy = true :=
  ⟨started_inv, by decide, by decide⟩

theorem witness_DitheredWindowIsBinary :
    started.latch.fits ∧ (ditherRef frame2x2 started.latch).isSome = true ∧
    1 < started.latch.aw.toNat ∧ 1 < started.latch.ah.toNat :=
  ⟨started_inv.latchFits, by decide, by decide, by decide⟩

/-- The A byte of a window pixel and a byte past the window, neither a colour byte of the window. -/
theorem witness_OnlyWindowColoursChange :
    (ditherRef frame2x2 ⟨0, 0, 2, 2⟩).isSome = true ∧
    ∀ a ∈ [3, 8], ¬∃ j i c, j < 2 ∧ i < 2 ∧ c < 3 ∧ a = 4 * ((0 + i) * 128 + (0 + j)) + c := by
  refine ⟨by decide, ?_⟩
  intro a ha
  simp only [List.mem_cons, List.not_mem_nil, or_false] at ha
  omega

/-- Two blocks that differ in everything the operation does not depend on. -/
theorem witness_OperationIsDeterministic :
    let s' : State := { started with status := ⟨true, true, false, true, false⟩, winSize := ⟨7, 9⟩, gw := [(5, 1)] }
    s'.rstN = true ∧ s'.phase = .luma ∧ s'.cx = 0 ∧ s'.cy = 0 ∧ started.fb = s'.fb ∧
      started.latch = s'.latch ∧ s'.Inv ∧ started.Inv :=
  ⟨by decide, by decide, by decide, by decide, by decide, by decide,
    { started_inv with
      gwSorted := by decide
      lumaWritten := by
        intro _ j i _ h
        simp [before, started, State.reset] at h
      diffuseWritten := by intro h; cases h
      heldInReset := by decide }, started_inv⟩

theorem witness_BinaryWindowIsFixedPoint :
    Memory.wf (memWrite [] 0 4 0x07FFFFFF) ∧ Latch.fits ⟨0, 0, 1, 1⟩ ∧
    ∀ c < 3, readByte (memWrite [] 0 4 0x07FFFFFF) c = some 255 := by
  unfold Latch.fits
  decide

/-- Two frames that differ in pixel `(1, 0)` only, which pixel `(0, 0)` does not depend on. -/
theorem witness_DependencyReach :
    let m := memWrite (memWrite [] 0 4 0xFF808080) 4 4 0xFF808080
    let n := memWrite (memWrite [] 0 4 0xFF808080) 4 4 0xFF000000
    Latch.fits ⟨0, 0, 2, 1⟩ ∧ (∀ c < 3, readByte m c = readByte n c) ∧ readByte m 4 ≠ readByte n 4 ∧
      (ditherRef m ⟨0, 0, 2, 1⟩).isSome = true ∧ (ditherRef n ⟨0, 0, 2, 1⟩).isSome = true := by
  unfold Latch.fits
  decide

/-- Two steps in which the host polls and writes while the engine runs. -/
theorem witness_HostCannotDisturbAnOperation :
    let s := { started with hostQueue := [⟨0x60018, 0⟩], turns := [.host, .engine] }
    s.Inv ∧ s.rstN = true ∧ Turn.assertReset ∉ s.turns ∧
      (∀ k < 2, ∀ u, Sys2Proof.core.run k s = .next u → u.status.busy = true) ∧
      (next (Sys2Proof.core.run 2 s)).isSome = true := by
  refine ⟨{ started_inv with heldInReset := by decide }, by decide, by decide, ?_, by decide⟩
  intro k hk u h
  interval_cases k <;> cases h <;> decide

end Sys2Proof.Tests
end

section
/-! The division rounding toward zero (R10): an equation per sign of the dividend, and its agreement with the
library's `Int.tdiv`. -/

namespace Sys2Proof.Machine

theorem tdiv_of_nonneg {a : Int} (b : Int) (ha : 0 ≤ a) : tdiv a b = a / b := if_pos ha

theorem tdiv_of_neg {a : Int} (b : Int) (ha : a < 0) : tdiv a b = -(-a / b) := if_neg (by omega)

/-- On a dividend that is not negative both divisions are the floor; on a negative one both are the
negation of the same division of `-a`. -/
theorem tdiv_eq_intTdiv (a b : Int) : tdiv a b = a.tdiv b := by
  rcases le_or_gt 0 a with ha | ha
  · rw [tdiv_of_nonneg b ha, Int.tdiv_eq_ediv_of_nonneg ha]
  · have hneg : 0 ≤ -a := by omega
    rw [tdiv_of_neg b ha, ← Int.tdiv_eq_ediv_of_nonneg hneg, Int.neg_tdiv, neg_neg]

/-- Settles O36: an equation for each sign of the dividend, and the agreement with `Int.tdiv`. -/
theorem tdivRoundsTowardZero : Obligations.TdivRoundsTowardZero :=
  fun a b _ => ⟨tdiv_of_nonneg b, tdiv_of_neg b, tdiv_eq_intTdiv a b⟩

end Sys2Proof.Machine
end

section
/-! The level of `irq` (R41): its four terms, the same as a shared bit of the STATUS and IRQ_EN words, and the
two writes that lower it (R158, R160, R214). -/

namespace Sys2Proof.Machine

/-- Some cause is both pending and enabled (R41). -/
theorem irqOf_iff (s : Status) (e : IrqEn) : irqOf s e = true ↔
    (s.done = true ∧ e.doneIe = true) ∨ (s.cfgErr = true ∧ e.cfgErrIe = true) ∨
      (s.ovrErr = true ∧ e.ovrErrIe = true) ∨ (s.accErr = true ∧ e.accErrIe = true) := by
  simp only [irqOf, Bool.or_eq_true, Bool.and_eq_true, or_assoc]

theorem and_ne_zero_iff_exists_bit {n : Nat} (a b : BitVec n) :
    a &&& b ≠ 0 ↔ ∃ k, a.getLsbD k = true ∧ b.getLsbD k = true := by
  simp only [← Bool.and_eq_true, ← BitVec.getLsbD_and]
  constructor
  · intro h
    by_contra! hk
    exact h (BitVec.eq_of_getLsbD_eq fun k _ => by simpa using hk k)
  · rintro ⟨k, hk⟩ h
    simp [h] at hk

/-- A cause and its enable stand at the same bit of their words, and bit 0 of IRQ_EN reads 0, so BUSY is no
cause (R22, R32). -/
theorem irqOf_iff_words (s : Status) (e : IrqEn) :
    irqOf s e = true ↔ s.word &&& e.word ≠ 0 := by
  simp only [irqOf_iff, and_ne_zero_iff_exists_bit, Status.word_getLsbD, IrqEn.word_getLsbD]
  constructor
  · rintro (h | h | h | h)
    · exact ⟨1, h⟩
    · exact ⟨2, h⟩
    · exact ⟨3, h⟩
    · exact ⟨4, h⟩
  · rintro ⟨k, h⟩
    match k, h with
    | 0, h => cases h.2
    | 1, h => exact .inl h
    | 2, h => exact .inr (.inl h)
    | 3, h => exact .inr (.inr (.inl h))
    | 4, h => exact .inr (.inr (.inr h))
    | _ + 5, h => cases h.2

/-- `0x1E` has a 1 at each sticky bit, and BUSY is not cleared (R158). -/
theorem Status.clear_allSticky (s : Status) : s.clear 0x1E = ⟨s.busy, false, false, false, false⟩ := by
  simp [Status.clear, Cause.bit]

theorem irqOf_clear_allSticky (s : Status) (e : IrqEn) : irqOf (s.clear 0x1E) e = false := by
  rw [Status.clear_allSticky]
  rfl

theorem irqOf_enablesZero (s : Status) : irqOf s (IrqEn.ofWord 0) = false := by
  rw [← Bool.not_eq_true, irqOf_iff_words, IrqEn.word_ofWord]
  simp

/-- Settles O32: the two forms of the level, and the two writes performed. -/
theorem irqLevel : Obligations.IrqLevel := by
  refine ⟨rfl, fun s => ⟨irqOf_iff _ _, irqOf_iff_words _ _, ?_, ?_⟩⟩
  · intro t h
    cases h
    exact ⟨irqOf_clear_allSticky _ _, rfl⟩
  · intro t h
    cases h
    exact ⟨irqOf_enablesZero _, rfl⟩

end Sys2Proof.Machine
end

section
/-! Frame addresses (R61, R96): the fields of an offset as quotients and remainders, and the symbol
`FB(x, y, c)` as the aperture's address of the offset `4*(y*FW + x) + c`. -/

namespace Sys2Proof.Machine

theorem offX_toNat (off : FbOff) : (offX off).toNat = off.toNat / 4 % 128 := by
  simp [offX, BitVec.extractLsb'_toNat, Nat.shiftRight_eq_div_pow]

/-- The six bits of `y` reach to the top of the offset, so the quotient needs no remainder. -/
theorem offY_toNat (off : FbOff) : (offY off).toNat = off.toNat / 512 := by
  simp only [offY, BitVec.extractLsb'_toNat, Nat.shiftRight_eq_div_pow]
  omega

theorem offChannel_toNat (off : FbOff) : (offChannel off).toNat = off.toNat % 4 := by
  simp [offChannel, BitVec.extractLsb'_toNat]

theorem pixelOffset_eq (x y : Nat) : pixelOffset x y = 4 * (y * 128 + x) := rfl

theorem fbAddr_toNat (off : FbOff) : (fbAddr off).toNat = 0x8000 + off.toNat := by
  rw [fbAddr, BitVec.setWidth_eq, BitVec.toNat_append]
  exact (Nat.shiftLeft_add_eq_or_of_lt off.isLt 1).symm

theorem fbAddr_ofNat {n : Nat} (h : n < 2 ^ 15) :
    fbAddr (BitVec.ofNat 15 n) = BitVec.ofNat 16 (Config.fbBase + n) := by
  have hbase : Config.fbBase = 0x8000 := rfl
  apply BitVec.eq_of_toNat_eq
  rw [fbAddr_toNat, BitVec.toNat_ofNat, BitVec.toNat_ofNat, hbase]
  omega

/-- The pixels of the 128 by 64 frame, four bytes each, fill the 15-bit offsets. -/
theorem pixelOffset_add_lt {x y c : Nat} (hx : x < 128) (hy : y < 64) (hc : c < 4) :
    pixelOffset x y + c < 2 ^ 15 := by
  rw [pixelOffset_eq]
  omega

theorem fbChannelSymbol_eq_fbAddr {x y c : Nat} (hx : x < 128) (hy : y < 64) (hc : c < 4) :
    fbChannelSymbol x y c = fbAddr (BitVec.ofNat 15 (pixelOffset x y + c)) := by
  rw [fbAddr_ofNat (pixelOffset_add_lt hx hy hc), fbChannelSymbol, Nat.add_assoc]

/-- An offset is put together again from the pixel and the channel its bits name. -/
theorem toNat_eq_pixelOffset_add_channel (off : FbOff) :
    off.toNat = pixelOffset (offX off).toNat (offY off).toNat + (offChannel off).toNat := by
  rw [pixelOffset_eq, offX_toNat, offY_toNat, offChannel_toNat]
  omega

/-- The offset of a pixel's channel names that pixel and channel. -/
theorem fields_of_toNat_eq {off : FbOff} {x y c : Nat} (hx : x < 128) (hc : c < 4)
    (h : off.toNat = pixelOffset x y + c) :
    (offX off).toNat = x ∧ (offY off).toNat = y ∧ (offChannel off).toNat = c := by
  rw [offX_toNat, offY_toNat, offChannel_toNat, h, pixelOffset_eq]
  omega

/-- Settles O6: the offset put together from its fields, and the fields of the symbol's offset. -/
theorem frameAddressNamesPixelAndChannel : Obligations.FrameAddressNamesPixelAndChannel := by
  refine ⟨toNat_eq_pixelOffset_add_channel, fun x y c hx hy hc => ?_⟩
  simp only [fbChannelSymbol_eq_fbAddr hx hy hc, inAperture_fbAddr, fbOffOf_fbAddr, true_and]
  exact fields_of_toNat_eq hx hc (Nat.mod_eq_of_lt (pixelOffset_add_lt hx hy hc))

end Sys2Proof.Machine
end

section
/-! The illegal descriptors (R99, R165, R198, R199): what each region's decoder rejects, in terms of the numbers
the descriptor's fields stand for, and the host's turn on a rejected transaction. -/

namespace Sys2Proof

theorem inAperture_eq_decide (a : Addr) : inAperture a = decide (0x8000 ≤ a.toNat) :=
  a.msb_eq_getLsbD_last.symm.trans a.msb_eq_decide

theorem fbOffOf_toNat (a : Addr) : (fbOffOf a).toNat = a.toNat % 0x8000 := by
  simp [fbOffOf, BitVec.extractLsb'_toNat]

/-- The seven registers stand at the multiples of 4 below `0x1C` (R22). -/
theorem exists_offset_eq_iff {a : Addr} :
    (∃ r : Reg, r.offset = a) ↔ a.toNat % 4 = 0 ∧ a.toNat < 0x1C := by
  constructor
  · rintro ⟨r, rfl⟩
    cases r <;> decide
  · rintro ⟨h4, hlt⟩
    simp only [← BitVec.toNat_inj]
    obtain h | h | h | h | h | h | h : a.toNat = 0 ∨ a.toNat = 4 ∨ a.toNat = 8 ∨ a.toNat = 12 ∨
        a.toNat = 16 ∨ a.toNat = 20 ∨ a.toNat = 24 := by omega
    · exact ⟨.id, h.symm⟩
    · exact ⟨.geom, h.symm⟩
    · exact ⟨.ctrl, h.symm⟩
    · exact ⟨.status, h.symm⟩
    · exact ⟨.irqEn, h.symm⟩
    · exact ⟨.winOrg, h.symm⟩
    · exact ⟨.winSize, h.symm⟩

theorem regAt_eq_some_iff {a : Addr} {r : Reg} : regAt a = some r ↔ r.offset = a :=
  ⟨offset_of_regAt, fun h => h ▸ regAt_offset r⟩

theorem regAt_eq_none_iff {a : Addr} : regAt a = none ↔ a.toNat % 4 ≠ 0 ∨ 0x1C ≤ a.toNat := by
  have hnone : regAt a = none ↔ ¬∃ r : Reg, r.offset = a := by
    simp only [Option.eq_none_iff_forall_ne_some, ne_eq, regAt_eq_some_iff, not_exists]
  rw [hnone, exists_offset_eq_iff]
  omega

/-- A register-region access is rejected by its size or by its address (R165). -/
theorem decodeRegister_error_iff {wr : Bool} {size : BitVec 2} {a : Addr} {d : Word} :
    (∃ e, decodeRegister wr size a d = .error e) ↔
      size ≠ size32 ∨ a.toNat % 4 ≠ 0 ∨ 0x1C ≤ a.toNat := by
  rw [← regAt_eq_none_iff]
  unfold decodeRegister
  split
  · next hsize =>
    cases hreg : regAt a with
    | none => by_cases hlow : a.extractLsb' 0 2 = 0#2 <;> simp [hlow]
    | some r => simp [hsize]
  · next hsize => simp [hsize]

/-- A frame access of a size that R92 names is rejected by its alignment alone, so never at 8 bits (R198). -/
theorem decodeFrame_error_iff {wr : Bool} {size : BitVec 2} {off : FbOff} {d : Word}
    (hsize : size ≠ sizeReserved) :
    (∃ e, decodeFrame wr size off d = .error e) ↔
      (size = size16 ∧ off.toNat % 2 ≠ 0) ∨ (size = size32 ∧ off.toNat % 4 ≠ 0) := by
  have hcodes : size = size8 ∨ size = size16 ∨ size = size32 := by
    revert size
    decide
  rcases hcodes with rfl | rfl | rfl
  · simp [decodeFrame, size8, size16, size32]
  · by_cases h2 : aligned2 off = true <;>
      simp [decodeFrame, size8, size16, size32, ← aligned2_iff, h2]
  · by_cases h4 : aligned4 off = true <;>
      simp [decodeFrame, size8, size16, size32, ← aligned4_iff, h4]

/-- Which transactions no row matches (R99), region by region. An address's remainders by 2 and 4 are its
offset's, since the aperture begins at a multiple of 4. -/
theorem decode_error_iff (t : Txn) : (∃ e, decode t = .error e) ↔
    tdSize t.td = sizeReserved ∨
    ((tdAddr t.td).toNat < 0x8000 ∧
      (tdSize t.td ≠ size32 ∨ (tdAddr t.td).toNat % 4 ≠ 0 ∨ 0x1C ≤ (tdAddr t.td).toNat)) ∨
    (0x8000 ≤ (tdAddr t.td).toNat ∧
      ((tdSize t.td = size16 ∧ (tdAddr t.td).toNat % 2 ≠ 0) ∨
        (tdSize t.td = size32 ∧ (tdAddr t.td).toNat % 4 ≠ 0))) := by
  by_cases hres : tdSize t.td = sizeReserved
  · simp [decode_reserved hres, hres]
  have hap := inAperture_eq_decide (tdAddr t.td)
  by_cases hlow : (tdAddr t.td).toNat < 0x8000
  · rw [decode_register hres (by rw [hap]; simpa using hlow), decodeRegister_error_iff]
    simp [hres, hlow]
  · rw [decode_frame hres (by rw [hap]; simpa using hlow), decodeFrame_error_iff hres, fbOffOf_toNat,
      Nat.mod_mod_of_dvd _ (by decide : 2 ∣ 0x8000), Nat.mod_mod_of_dvd _ (by decide : 4 ∣ 0x8000)]
    simp [hres, hlow, Nat.le_of_not_lt hlow]

end Sys2Proof

namespace Sys2Proof.Machine

variable {s : State} {t : Txn} {q : List Txn} {ts : List Turn} {e : DecodeError}

/-- The host's turn is one laid down, or the default while the engine has no step enabled. -/
theorem takeTurn_host
    (h : s.turns = .host :: ts ∨ (s.turns = [] ∧ ts = [] ∧ engineEnabled s = false)) :
    takeTurn s = (.host, { s with turns := ts }) := by
  rcases h with hts | ⟨hts, rfl, hoff⟩
  · simp only [takeTurn, hts]
  · simp only [takeTurn, defaultTurn, hts, hoff]
    rw [← hts]
    rfl

theorem present_illegal (hr : s.rstN = true) (hq : s.hostQueue = t :: q) (hd : decode t = .error e) :
    present s = .illegal e { s with hostQueue := q } := by
  simp only [present, hr, hq, hd, if_true]

/-- The ERR response of R99 names no sticky bit. -/
theorem step_host_illegal (hturn : takeTurn s = (.host, { s with turns := ts })) (hr : s.rstN = true)
    (hq : s.hostQueue = t :: q) (hd : decode t = .error e) :
    step s = .next { s with turns := ts, hostQueue := q, response := some ⟨true, 0⟩ } := by
  have hpres := present_illegal (s := { s with turns := ts }) hr hq hd
  simp only [step, hturn, hpres]
  rfl

/-- Settles O5: the list of R99 against the numbers of the two regions, and the host's turn. -/
theorem illegalTransactions : Obligations.IllegalTransactions := by
  refine ⟨fun t => ?_, fun s t q ts e hr hturn hq hd => step_host_illegal (takeTurn_host hturn) hr hq hd⟩
  have hbit : (tdAddr t.td).getLsbD 15 = decide (0x8000 ≤ (tdAddr t.td).toNat) := inAperture_eq_decide _
  rw [decode_error_iff, hbit]
  simp only [decide_eq_true_eq, decide_eq_false_iff_not, sizeReserved, size16, size32, ne_eq,
    ← BitVec.toNat_inj (x := tdSize t.td), BitVec.toNat_ofNat]
  omega

end Sys2Proof.Machine
end

section
/-! The transform on integers: luminance and quantiser (R111, R112), and the four shares together (R131). -/

namespace Sys2Proof.Machine

theorem level_eq_ite (w : Int) : level w = if w < 12700 then 0 else 255 := by
  unfold level
  split
  · next h => rw [if_neg (not_lt.2 (isWhite_iff.1 h))]; rfl
  · next h => rw [if_pos (not_le.1 (mt isWhite_iff.2 h))]; rfl

theorem levelC_eq_ite (w : Int) : levelC w = if w < 12700 then 0 else 25500 := by
  unfold levelC
  split
  · next h => rw [if_neg (not_lt.2 (isWhite_iff.1 h)), vHiC_eq]
  · next h => rw [if_pos (not_le.1 (mt isWhite_iff.2 h)), vLoC_eq]

/-- Settles O37: the range of a luminance is within 15 bits, and each level is chosen at the threshold. -/
theorem luminanceAndThreshold : Obligations.LuminanceAndThreshold := by
  refine ⟨fun r g b => ?_, fun w => ?_⟩
  · obtain ⟨hlo, hhi⟩ := luminance_range r g b
    exact ⟨luminance_eq r g b, hlo, hhi, by omega⟩
  · rw [level_eq_ite, levelC_eq_ite]
    constructor
    · intro h
      simp [h]
    · intro h
      simp [not_lt.2 h]

/-- A share whose target is outside the latched window is lost (R114). -/
theorem share_outside {l : Latch} {jj ii : Int} (x : Int) (gw : GrayArray)
    (h : ¬(0 ≤ jj ∧ jj < l.aw.toNat ∧ ii < l.ah.toNat)) : share l jj ii x gw = gw :=
  if_neg (mt inWindow_iff.1 h)

/-- A share of a non-negative weight has the sign of the error, or is 0. -/
theorem shareOf_sign {k : Int} (hk : 0 ≤ k) (e : Int) :
    (0 ≤ e → 0 ≤ shareOf k e) ∧ (e ≤ 0 → shareOf k e ≤ 0) :=
  ⟨fun he => ((shareOf_bounds k e).1 (mul_nonneg hk he)).1,
    fun he => ((shareOf_bounds k e).2 (mul_nonpos_of_nonneg_of_nonpos hk he)).1⟩

/-- In absolute values, 16 times a share falls short of `k*|e|` by less than 16. -/
theorem shareOf_abs_bounds {k : Int} (hk : 0 ≤ k) (e : Int) :
    16 * |shareOf k e| ≤ k * |e| ∧ k * |e| < 16 * |shareOf k e| + 16 := by
  rcases le_total 0 e with he | he
  · obtain ⟨hsign, hle, hlt⟩ := (shareOf_bounds k e).1 (mul_nonneg hk he)
    rw [abs_of_nonneg he, abs_of_nonneg hsign]
    exact ⟨hle, hlt⟩
  · obtain ⟨hsign, hle, hlt⟩ := (shareOf_bounds k e).2 (mul_nonpos_of_nonneg_of_nonpos hk he)
    rw [abs_of_nonpos he, abs_of_nonpos hsign, mul_neg k]
    omega

/-- The weights sum to 16, so four roundings that lose less than 1 each lose 0 to 3 together (R131). -/
theorem shareOf_abs_sum (e : Int) :
    |shareOf 7 e| + |shareOf 3 e| + |shareOf 5 e| + |shareOf 1 e| ≤ |e| ∧
      |e| - (|shareOf 7 e| + |shareOf 3 e| + |shareOf 5 e| + |shareOf 1 e|) ≤ 3 := by
  have h7 := shareOf_abs_bounds (k := 7) (by decide) e
  have h3 := shareOf_abs_bounds (k := 3) (by decide) e
  have h5 := shareOf_abs_bounds (k := 5) (by decide) e
  have h1 := shareOf_abs_bounds (k := 1) (by decide) e
  omega

/-- Settles O38: clipped shares are lost, and the four shares are bounded through their roundings. -/
theorem sharesNeverAmplify : Obligations.SharesNeverAmplify := by
  refine ⟨fun l jj ii x gw h => share_outside x gw h, fun e => ⟨fun k hk => ?_, shareOf_abs_sum e⟩⟩
  have hk0 : 0 ≤ k := by
    simp only [List.mem_cons, List.not_mem_nil, or_false] at hk
    omega
  exact shareOf_sign hk0 e

end Sys2Proof.Machine
end

section
/-! What each of the engine's three steps leaves, field by field (R118 to R121). -/

namespace Sys2Proof.Machine

theorem pixelLuma_some {m : Memory} {p : Nat} {r g b : Byte} (hr : readByte m p = some r)
    (hg : readByte m (p + 1) = some g) (hb : readByte m (p + 2) = some b) :
    pixelLuma m p = some (luminance r g b) := by
  simp [pixelLuma, hr, hg, hb]

/-- `advance` moves the phase and the cursor, and keeps every other field. -/
theorem advance_frame (ph : Phase) (s : State) : advance ph s =
    { s with phase := (advance ph s).phase, cx := (advance ph s).cx, cy := (advance ph s).cy } := by
  obtain ⟨p, x, y, h⟩ := advance_eq ph s
  rw [h]
  rfl

/-- The three cases of `advance` in the luminance pass (R120). -/
theorem advance_luma_cursor {s : State} (hp : s.phase = .luma) :
    (s.cx + 1 ≠ s.latch.aw.toNat → s.cy ≠ s.latch.ah.toNat →
      (advance .luma s).phase = .luma ∧ (advance .luma s).cx = s.cx + 1 ∧ (advance .luma s).cy = s.cy) ∧
    (s.cx + 1 = s.latch.aw.toNat → s.cy + 1 ≠ s.latch.ah.toNat →
      (advance .luma s).phase = .luma ∧ (advance .luma s).cx = 0 ∧ (advance .luma s).cy = s.cy + 1) ∧
    (s.cx + 1 = s.latch.aw.toNat → s.cy + 1 = s.latch.ah.toNat →
      (advance .luma s).phase = .diffuse ∧ (advance .luma s).cx = 0 ∧ (advance .luma s).cy = 0) := by
  refine ⟨fun hx hy => ?_, fun hx hy => ?_, fun hx hy => ?_⟩
  · simp [advance_inside hx fun _ => hy, hp]
  · simp [advance_row hx fun _ => hy, hp]
  · simp [advance_end hx hy]

/-- Settles O39: the luminance fits the cell of 18 bits, and `advance` has three cases. -/
theorem lumaStepResult : Obligations.LumaStepResult := by
  intro s r g b hrst hbusy hphase hcx p hr hg hb
  have hluma : pixelLuma s.fb (cursorOffset s) = some (luminance r g b) := pixelLuma_some hr hg hb
  obtain ⟨hlo, hhi⟩ := luminance_range r g b
  refine ⟨_, (engineStep_luma hrst hbusy hphase).trans (lumaStep_some hluma), ?_, ?_, ?_,
    advance_luma_cursor (s := s.withGw (graySet s.gw s.cy s.cx (luminance r g b))) hphase⟩
  · rw [advance_gw]
    exact advance_frame .luma _
  · rw [advance_gw, State.withGw_gw, grayAt_graySet_same _ _ _ (by omega), luminance_eq]
  · intro i j hj hne
    rw [advance_gw, State.withGw_gw, grayAt_graySet_ne _ _ hcx hj hne]

/-- The shares of an error within 12800 move no cell by more than 5600 (R130). -/
theorem visitShare_range {e : Int} (he : -12800 ≤ e ∧ e ≤ 12800) (j i i' j' : Nat) :
    -5600 ≤ visitShare j i e i' j' ∧ visitShare j i e i' j' ≤ 5600 := by
  have h7 := shareOf_range (k := 7) he (by decide)
  have h3 := shareOf_range (k := 3) he (by decide)
  have h5 := shareOf_range (k := 5) he (by decide)
  have h1 := shareOf_range (k := 1) he (by decide)
  unfold visitShare
  split_ifs <;> omega

theorem State.Inv.visitCursor {s : State} (h : s.Inv) (hp : s.phase = .diffuse)
    (hy : s.cy < s.latch.ah.toNat) : s.cx < s.latch.aw.toNat := by
  rcases h.diffuseCursor hp with ⟨hx, _⟩ | ⟨_, hend, _⟩
  · exact hx
  · omega

/-- No sum of a visit leaves 18 bits, so every window cell takes its share exactly (R119, R130). -/
theorem visitStep_grayAt {s : State} (hi : s.Inv) (hg : s.GrayInv) (hp : s.phase = .diffuse)
    (hy : s.cy < s.latch.ah.toNat) {i j : Nat} (hj : j < s.latch.aw.toNat) (hii : i < s.latch.ah.toNat) :
    (grayAt (visitStep s).gw i j).toInt = (grayAt s.gw i j).toInt +
      visitShare s.cx s.cy (quantError (grayAt s.gw s.cy s.cx).toInt) i j := by
  have hcell := hg.window_range hp hj hii
  have hshare := visitShare_range
    (quantError_range (hg.window_range hp (hi.visitCursor hp hy) hy)) s.cx s.cy i j
  rw [visitStep_eq]
  exact spread_grayAt _ _ _ _ _ hj hii (by omega)

theorem visitStep_fb (s : State) : (visitStep s).fb =
    paint s.fb (cursorOffset s) (level (grayAt s.gw s.cy s.cx).toInt) := by
  rw [visitStep_eq]
  rfl

/-- Settles O41: the level painted at the cursor, the shares of R113 on the window, the cursor of R120. -/
theorem visitStepResult : Obligations.VisitStepResult := by
  intro s hi hg hrst hp hy w v e p
  have hbusy : s.status.busy = true := hi.busyIffActive.2 (by simp [hp])
  have hfb : (visitStep s).fb = paint s.fb p v := by
    rw [visitStep_fb, level_eq_ite]
    rfl
  have herr : quantError w = e := by
    rw [quantError, levelC_eq_ite]
  refine ⟨_, engineStep_visit hrst hbusy hp hy, ?_, ?_, ?_, ?_, ?_, ?_, ?_, ?_⟩
  · rw [visitStep_eq]
    rfl
  · rw [hfb, readByte_paint, if_pos (by omega)]
  · rw [hfb, readByte_paint, if_pos (by omega)]
  · rw [hfb, readByte_paint, if_pos (by omega)]
  · intro a h0 h1 h2
    rw [hfb, readByte_paint, if_neg (by omega)]
  · intro i j hj hii
    rw [visitStep_grayAt hi hg hp hy hj hii, herr]
    simp only [visitShare, shareOf_eq_tdiv]
  · intro hx
    rw [visitStep_eq, nextCursor, if_neg hx]
    exact ⟨rfl, rfl⟩
  · intro hx
    rw [visitStep_eq, nextCursor, if_pos hx]
    exact ⟨rfl, rfl⟩

/-- Settles O42: the step enabled at `CY = AH` is `COMPLETE_STEP`. -/
theorem completeStepResult : Obligations.CompleteStepResult :=
  fun _ hrst hbusy hp hy => engineStep_complete hrst hbusy hp hy

end Sys2Proof.Machine
end

section
/-! Two operations on one frame memory and one latched window go alike (R125). `GW` at their start may
differ, so the relation speaks of the working values that the operation has itself written. -/

namespace Sys2Proof.Machine

variable {s s' t : State}

/-- The operation has written the working value of the window cell `(j, i)`: in the luminance pass if the
cell comes before the cursor, afterwards always. -/
def State.wroteGray (s : State) (j i : Nat) : Prop :=
  j < s.latch.aw.toNat ∧ i < s.latch.ah.toNat ∧ (s.phase = .luma → before s.cx s.cy j i)

/-- Two blocks at the same point of the same operation. -/
structure SameOperation (s s' : State) : Prop where
  rstN : s'.rstN = s.rstN
  busy : s'.status.busy = s.status.busy
  fb : s'.fb = s.fb
  phase : s'.phase = s.phase
  cx : s'.cx = s.cx
  cy : s'.cy = s.cy
  latch : s'.latch = s.latch
  /-- The cursor's column is one of the window. -/
  column : s.cx < s.latch.aw.toNat
  gray : ∀ j i, s.wroteGray j i → grayAt s'.gw i j = grayAt s.gw i j

theorem grayAt_graySet (gw : GrayArray) {i j i' j' : Nat} (v : Int) (hj : j < 256) (hj' : j' < 256) :
    grayAt (graySet gw i j v) i' j' =
      if i' = i ∧ j' = j then BitVec.ofInt 18 v else grayAt gw i' j' := by
  split
  · next h =>
    obtain ⟨rfl, rfl⟩ := h
    simp [grayAt, graySet]
  · next h => exact grayAt_graySet_ne gw v hj hj' (by tauto)

/-- Two working arrays agree on the window of `l`. -/
def AgreeOnWindow (l : Latch) (gw gw' : GrayArray) : Prop :=
  ∀ j i, j < l.aw.toNat → i < l.ah.toNat → grayAt gw' i j = grayAt gw i j

/-- A share reads its target alone, a window cell. -/
theorem share_agreeOnWindow {l : Latch} {gw gw' : GrayArray} (h : AgreeOnWindow l gw gw') (jj ii x : Int) :
    AgreeOnWindow l (share l jj ii x gw) (share l jj ii x gw') := by
  by_cases hin : 0 ≤ jj ∧ jj < l.aw.toNat ∧ ii < l.ah.toNat
  · intro j i hj hi
    have hw := l.aw.isLt
    simp only [share, if_pos (inWindow_iff.2 hin)]
    rw [grayAt_graySet _ _ (by omega) (by omega), grayAt_graySet _ _ (by omega) (by omega)]
    split
    · next he =>
      obtain ⟨rfl, rfl⟩ := he
      rw [h _ _ hj hi]
    · exact h j i hj hi
  · rw [share_outside x gw hin, share_outside x gw' hin]
    exact h

theorem spread_agreeOnWindow {l : Latch} {gw gw' : GrayArray} (h : AgreeOnWindow l gw gw') (j i e : Int) :
    AgreeOnWindow l (spread l j i e gw) (spread l j i e gw') :=
  share_agreeOnWindow (share_agreeOnWindow (share_agreeOnWindow (share_agreeOnWindow h
    _ _ _) _ _ _) _ _ _) _ _ _

/-! ## The cursor's advance -/

/-- `advance` begins the diffusion pass, and then the next cursor is past the last row, or goes to the next
cursor (R120). -/
theorem advance_cases (ph : Phase) (s : State) :
    ((nextCursor s.latch s.cx s.cy).2 = s.latch.ah.toNat ∧ advance ph s = s.moveTo .diffuse 0 0) ∨
    advance ph s = s.moveTo s.phase (nextCursor s.latch s.cx s.cy).1 (nextCursor s.latch s.cx s.cy).2 := by
  simp only [advance]
  split
  · next h => exact .inl ⟨h.2, rfl⟩
  · exact .inr rfl

theorem nextCursor_column {l : Latch} {cx : Nat} (hx : cx < l.aw.toNat) (cy : Nat) :
    (nextCursor l cx cy).1 < l.aw.toNat := by
  unfold nextCursor
  split <;> simp only <;> omega

/-- A cell of a window column that comes before the next cursor comes before this one or is its own (R115). -/
theorem before_nextCursor {l : Latch} {cx cy j i : Nat} (hj : j < l.aw.toNat)
    (h : before (nextCursor l cx cy).1 (nextCursor l cx cy).2 j i) :
    before cx cy j i ∨ (j = cx ∧ i = cy) := by
  unfold nextCursor before at h
  unfold before
  split at h <;> simp only at h <;> omega

theorem advance_column {ph : Phase} (h : s.cx < s.latch.aw.toNat) :
    (advance ph s).cx < (advance ph s).latch.aw.toNat := by
  rcases advance_cases ph s with ⟨_, ha⟩ | ha <;> rw [ha]
  · exact Nat.zero_lt_of_lt h
  · exact nextCursor_column h s.cy

/-- After `advance` a cell counts as written if it did before or is the cursor's. -/
theorem wroteGray_advance {ph : Phase} {j i : Nat} (h : (advance ph s).wroteGray j i) :
    s.wroteGray j i ∨ (j = s.cx ∧ i = s.cy) := by
  obtain ⟨hj, hi, hb⟩ := h
  rw [advance_latch] at hj hi
  by_cases hc : j = s.cx ∧ i = s.cy
  · exact .inr hc
  · refine .inl ⟨hj, hi, fun hp => (before_nextCursor hj ?_).resolve_right hc⟩
    rcases advance_cases ph s with ⟨hend, _⟩ | ha
    · exact .inl (hend ▸ hi)
    · rw [ha] at hb
      exact hb hp

/-! ## The relation is kept by every engine step -/

/-- Two blocks stay together under any two working arrays that agree where the operation has written. -/
theorem SameOperation.withGw (h : SameOperation s s') {gw gw' : GrayArray}
    (hg : ∀ j i, s.wroteGray j i → grayAt gw' i j = grayAt gw i j) :
    SameOperation (s.withGw gw) (s'.withGw gw') :=
  { h with gray := hg }

theorem SameOperation.withFb (h : SameOperation s s') (m : Memory) :
    SameOperation (s.withFb m) (s'.withFb m) :=
  { h with fb := rfl }

/-- `advance` keeps two blocks together that agree on the cursor's cell. -/
theorem SameOperation.after_advance (h : SameOperation s s')
    (hc : grayAt s'.gw s.cy s.cx = grayAt s.gw s.cy s.cx) (ph : Phase) :
    SameOperation (advance ph s) (advance ph s') := by
  have hmove : (advance ph s').phase = (advance ph s).phase ∧
      (advance ph s').cx = (advance ph s).cx ∧
      (advance ph s').cy = (advance ph s).cy := by
    simp only [advance, h.latch, h.cx, h.cy]
    split <;> simp [h.phase]
  obtain ⟨hphase, hcx, hcy⟩ := hmove
  exact {
    rstN := by simp [h.rstN]
    busy := by simp [h.busy]
    fb := by simp [h.fb]
    phase := hphase
    cx := hcx
    cy := hcy
    latch := by simp [h.latch]
    column := advance_column h.column
    gray := fun j i hw => by
      rw [advance_gw, advance_gw]
      rcases wroteGray_advance hw with hw | ⟨rfl, rfl⟩
      · exact h.gray j i hw
      · exact hc }

theorem SameOperation.cursorOffset_eq (h : SameOperation s s') : cursorOffset s' = cursorOffset s := by
  simp only [cursorOffset, h.latch, h.cx, h.cy]

theorem SameOperation.engineEnabled_eq (h : SameOperation s s') : engineEnabled s' = engineEnabled s := by
  simp only [engineEnabled, h.rstN, h.busy, h.phase, h.cy, h.latch]

/-- Outside the luminance pass the two working arrays agree on the whole window. -/
theorem SameOperation.agreeOnWindow (h : SameOperation s s') (hp : s.phase = .diffuse) :
    AgreeOnWindow s.latch s.gw s'.gw :=
  fun j i hj hi => h.gray j i ⟨hj, hi, fun hl => by rw [hp] at hl; cases hl⟩

/-- Both write the same luminance into the cursor's cell. -/
theorem SameOperation.after_luma (h : SameOperation s s') (v : Int) :
    SameOperation (advance .luma (s.withGw (graySet s.gw s.cy s.cx v)))
      (advance .luma (s'.withGw (graySet s'.gw s'.cy s'.cx v))) := by
  have hw := s.latch.aw.isLt
  have hcol := h.column
  rw [h.cx, h.cy]
  refine (h.withGw fun j i hwrote => ?_).after_advance ?_ .luma
  · have hj : j < s.latch.aw.toNat := hwrote.1
    rw [grayAt_graySet _ _ (by omega) (by omega), grayAt_graySet _ _ (by omega) (by omega),
      h.gray j i hwrote]
  · change grayAt (graySet s'.gw s.cy s.cx v) s.cy s.cx = grayAt (graySet s.gw s.cy s.cx v) s.cy s.cx
    simp [grayAt, graySet]

/-- Both visits read the same working value, so they paint the same level and spread the same error. -/
theorem SameOperation.after_visit (h : SameOperation s s') (hp : s.phase = .diffuse)
    (hy : s.cy < s.latch.ah.toNat) : SameOperation (visitStep s) (visitStep s') := by
  have hread := h.agreeOnWindow hp s.cx s.cy h.column hy
  have hspread := spread_agreeOnWindow (h.agreeOnWindow hp) s.cx s.cy
    (quantError (grayAt s.gw s.cy s.cx).toInt)
  simp only [visitStep, h.latch, h.cx, h.cy, h.fb, h.cursorOffset_eq, hread]
  exact ((h.withGw fun j i ⟨hj, hi, _⟩ => hspread j i hj hi).withFb _).after_advance
    (hspread s.cx s.cy h.column hy) .diffuse

theorem SameOperation.after_complete (h : SameOperation s s') (hp : s.phase = .diffuse) :
    SameOperation (completeStep s) (completeStep s') :=
  { h with
    busy := rfl
    phase := rfl
    gray := fun j i ⟨hj, hi, _⟩ => h.agreeOnWindow hp j i hj hi }

/-- If one block's engine answers a next state, so does the other's, and they stay together. -/
theorem SameOperation.after_engineStep (h : SameOperation s s') (hs : engineStep s = .next t) :
    ∃ t', engineStep s' = .next t' ∧ SameOperation t t' := by
  rcases engineStep_next_cases hs with ⟨hoff, rfl⟩ | ⟨hr, hb, hp, v, hv, rfl⟩ |
    ⟨hr, hb, hp, hy, rfl⟩ | ⟨hr, hb, hp, hy, rfl⟩
  · exact ⟨s', engineStep_disabled (h.engineEnabled_eq.trans hoff), h⟩
  · rw [← h.fb, ← h.cursorOffset_eq] at hv
    exact ⟨_, (engineStep_luma (h.rstN.trans hr) (h.busy.trans hb) (h.phase.trans hp)).trans
      (lumaStep_some hv), h.after_luma v⟩
  · have hy' : s'.cy < s'.latch.ah.toNat := by rwa [h.cy, h.latch]
    exact ⟨_, engineStep_visit (h.rstN.trans hr) (h.busy.trans hb) (h.phase.trans hp) hy',
      h.after_visit hp hy⟩
  · have hy' : s'.cy = s'.latch.ah.toNat := by rwa [h.cy, h.latch]
    exact ⟨_, engineStep_complete (h.rstN.trans hr) (h.busy.trans hb) (h.phase.trans hp) hy',
      h.after_complete hp⟩

theorem SameOperation.after_engineRun {n : Nat} (h : SameOperation s s') (hrun : engineRun n s = .next t) :
    ∃ t', engineRun n s' = .next t' ∧ SameOperation t t' := by
  induction n generalizing s s' with
  | zero =>
    cases hrun
    exact ⟨s', rfl, h⟩
  | succ n ih =>
    cases hs : engineStep s with
    | next u =>
      obtain ⟨u', hs', hu⟩ := h.after_engineStep hs
      rw [engineRun_next hs] at hrun
      rw [engineRun_next hs']
      exact ih hu hrun
    | fault f =>
      rw [engineRun_fault hs] at hrun
      cases hrun
    | refused r => exact absurd hs engineStep_not_refused

/-- At the start of an operation no working value counts as written, so any two arrays will do. -/
theorem sameOperation_start (hi : s.Inv) (hi' : s'.Inv) (hr : s.rstN = true) (hr' : s'.rstN = true)
    (hp : s.phase = .luma) (hp' : s'.phase = .luma) (hx : s.cx = 0) (hy : s.cy = 0) (hx' : s'.cx = 0)
    (hy' : s'.cy = 0) (hfb : s.fb = s'.fb) (hl : s.latch = s'.latch) : SameOperation s s' where
  rstN := hr'.trans hr.symm
  busy := (hi'.busyIffActive.2 (by simp [hp'])).trans (hi.busyIffActive.2 (by simp [hp])).symm
  fb := hfb.symm
  phase := hp'.trans hp.symm
  cx := hx'.trans hx.symm
  cy := hy'.trans hy.symm
  latch := hl.symm
  column := (hi.lumaCursor hp).1
  gray := fun j i ⟨_, _, hbefore⟩ => by
    have hnone := hbefore hp
    simp [before, hx, hy] at hnone

/-- Settles O55: `SameOperation` holds at the start and every engine step keeps it. -/
theorem operationIsDeterministic : Obligations.OperationIsDeterministic := by
  intro s s' hi hi' hr hr' hp hp' hx hy hx' hy' hfb hl n t hrun
  obtain ⟨t', hrun', hsame⟩ :=
    (sameOperation_start hi hi' hr hr' hp hp' hx hy hx' hy' hfb hl).after_engineRun hrun
  exact ⟨t', hrun', hsame.fb, hsame.phase⟩

end Sys2Proof.Machine
end

section
/-! The register transactions (R151 to R164): the row that each register's descriptor decodes to, the host's turn
on a transaction that decodes, and what a read answers or a write leaves. -/

namespace Sys2Proof

/-- A word access at a register's offset is that register's row (R93). -/
theorem decode_registerWord {td : TD} (wr : Bool) (r : Reg) (d : Word)
    (htd : td = mkTd wr size32 r.offset) : decode ⟨td, d⟩ = .ok (regInstr wr d r) := by
  subst htd
  have hsize : size32 ≠ sizeReserved := by decide
  rw [decode_register (by simpa using hsize) (by simp)]
  simp [decodeRegister]

end Sys2Proof

namespace Sys2Proof.Machine

variable {s : State} {t : Txn} {q : List Txn} {ts : List Turn} {i : Instr} {d : Word}

/-! ## The host's turn on a transaction of a row -/

theorem present_row (hr : s.rstN = true) (hq : s.hostQueue = t :: q) (hd : decode t = .ok i) :
    present s = .row i { s with hostQueue := q } := by
  simp only [present, hr, hq, hd, if_true]

theorem step_host_row (hturn : takeTurn s = (.host, { s with turns := ts })) (hr : s.rstN = true)
    (hq : s.hostQueue = t :: q) (hd : decode t = .ok i) :
    step s = exec i { s with turns := ts, hostQueue := q } := by
  have hpres := present_row (s := { s with turns := ts }) hr hq hd
  simp only [step, hturn, hpres]

theorem step_pollStatus (hr : s.rstN = true) (hts : s.turns = .host :: ts)
    (hq : s.hostQueue = asmRd32 (Reg.offset .status) :: q) :
    step s = .next { s with
      turns := ts, hostQueue := q, response := some ⟨false, s.status.word⟩ } :=
  step_host_row (takeTurn_host (.inl hts)) hr hq (decode_registerWord false .status 0 rfl)

/-- Each poll leaves STATUS as it was, so the last of them answers the word the first did (R157). -/
theorem core_run_pollStatus (n : Nat) (hr : s.rstN = true)
    (hts : s.turns = List.replicate (n + 1) .host) (hq : s.hostQueue = asmWaitIdle (n + 1)) :
    Sys2Proof.core.run (n + 1) s = .next { s with
      turns := [], hostQueue := [], response := some ⟨false, s.status.word⟩ } := by
  induction n generalizing s with
  | zero => exact core_run_next (step_pollStatus hr hts hq)
  | succ n ih =>
    rw [core_run_next (step_pollStatus hr hts hq)]
    exact ih hr rfl rfl

/-- An accepted operation in its luminance pass, polled twice before the engine moves. -/
def polledTwice : State :=
  { State.reset with
    status := ⟨true, false, false, false, false⟩, phase := .luma, latch := ⟨0, 0, 128, 64⟩,
    turns := [.host, .host], hostQueue := asmWaitIdle 2 }

theorem core_run_polledTwice :
    polledTwice.status.busy = true ∧ Sys2Proof.core.run 2 polledTwice = .next { polledTwice with
      turns := [], hostQueue := [], response := some ⟨false, 1⟩ } :=
  ⟨rfl, core_run_pollStatus 1 rfl rfl rfl⟩

/-! ## Reads -/

theorem Status.word_getLsbD_of_five_le (s : Status) {k : Nat} (hk : 5 ≤ k) : s.word.getLsbD k = false := by
  obtain ⟨j, rfl⟩ := Nat.exists_eq_add_of_le' hk
  exact s.word_getLsbD (j + 5)

theorem IrqEn.word_getLsbD_of_five_le (e : IrqEn) {k : Nat} (hk : 5 ≤ k) : e.word.getLsbD k = false := by
  obtain ⟨j, rfl⟩ := Nat.exists_eq_add_of_le' hk
  exact e.word_getLsbD (j + 5)

/-- Settles O15: the two words by their bits, and the polls by induction on their number. -/
theorem statusAndIrqEnReads : Obligations.StatusAndIrqEnReads := by
  refine ⟨fun d => ⟨decode_registerWord false .status d rfl, decode_registerWord false .irqEn d rfl⟩,
    fun s n hr _ hts hq => core_run_pollStatus n hr hts hq, fun s => ⟨?_, ?_⟩⟩
  · have hbit := Status.word_getLsbD s.status
    exact ⟨s.status.word, rfl, hbit 0, hbit 1, hbit 2, hbit 3, hbit 4,
      fun k => s.status.word_getLsbD_of_five_le⟩
  · have hbit := IrqEn.word_getLsbD s.irqEn
    exact ⟨s.irqEn.word, rfl, hbit 0, hbit 1, hbit 2, hbit 3, hbit 4,
      fun k => s.irqEn.word_getLsbD_of_five_le⟩

/-- Settles O13: ID, GEOM and CTRL hold no state (R42), so each read answers a constant. -/
theorem constantRegisterReads : Obligations.ConstantRegisterReads :=
  ⟨fun d => ⟨decode_registerWord false .id d rfl, decode_registerWord false .geom d rfl,
    decode_registerWord false .ctrl d rfl⟩, fun _ => ⟨rfl, rfl, rfl⟩⟩

/-- Settles O16: the words are made of the registers' fields, and the latch is not among them. -/
theorem windowReads : Obligations.WindowReads :=
  ⟨fun d => ⟨decode_registerWord false .winOrg d rfl, decode_registerWord false .winSize d rfl⟩,
    fun s => ⟨⟨s.winOrg.word, rfl, s.winOrg.word_toNat⟩,
      ⟨s.winSize.word, rfl, s.winSize.word_toNat⟩⟩⟩

/-! ## Writes -/

/-- Settles O14: the write leaves its response alone, which the following read replaces. -/
theorem readOnlyRegisterWrites : Obligations.ReadOnlyRegisterWrites := by
  refine fun s d => ⟨decode_registerWord true .id d rfl, decode_registerWord true .geom d rfl, rfl, rfl,
    ?_, ?_⟩
  · intro t h
    cases h
    rfl
  · intro t h
    cases h
    rfl

/-- Settles O17: `Status.clear` names a bit of the data for each sticky bit, and none for BUSY. -/
theorem statusWriteClears : Obligations.StatusWriteClears :=
  fun _ d => ⟨decode_registerWord true .status d rfl, rfl⟩

theorem exec_rdIrqEn_of_ofWord (h : s.irqEn = IrqEn.ofWord d) :
    exec .rdIrqEn s = .next { s with response := some ⟨false, d &&& 0x1E⟩ } := by
  rw [← IrqEn.word_ofWord, ← h]
  rfl

/-- Settles O18: the enables are the fields of the data, and the read-back is their word. -/
theorem irqEnWrite : Obligations.IrqEnWrite :=
  fun _ d => ⟨decode_registerWord true .irqEn d rfl, _, rfl, rfl, exec_rdIrqEn_of_ofWord rfl⟩

theorem WinOrg.ofWord_toNat (d : Word) : (WinOrg.ofWord d).x0.toNat = d.toNat % 128 ∧
    (WinOrg.ofWord d).y0.toNat = d.toNat / 2 ^ 16 % 64 := by
  simp [WinOrg.ofWord, BitVec.extractLsb'_toNat, Nat.shiftRight_eq_div_pow]

theorem WinSize.ofWord_toNat (d : Word) : (WinSize.ofWord d).w.toNat = d.toNat % 256 ∧
    (WinSize.ofWord d).h.toNat = d.toNat / 2 ^ 16 % 128 := by
  simp [WinSize.ofWord, BitVec.extractLsb'_toNat, Nat.shiftRight_eq_div_pow]

theorem exec_rdWinOrg_of_ofWord (h : s.winOrg = WinOrg.ofWord d) :
    exec .rdWinOrg s = .next { s with response := some ⟨false, d &&& 0x003F007F⟩ } := by
  rw [← WinOrg.word_ofWord, ← h]
  rfl

theorem exec_rdWinSize_of_ofWord (h : s.winSize = WinSize.ofWord d) :
    exec .rdWinSize s = .next { s with response := some ⟨false, d &&& 0x007F00FF⟩ } := by
  rw [← WinSize.word_ofWord, ← h]
  rfl

/-- Settles O19: the stored fields as remainders of the data, and the read-back as their word. -/
theorem windowWrites : Obligations.WindowWrites := by
  intro s d
  obtain ⟨hx, hy⟩ := WinOrg.ofWord_toNat d
  obtain ⟨hw, hh⟩ := WinSize.ofWord_toNat d
  exact ⟨decode_registerWord true .winOrg d rfl, decode_registerWord true .winSize d rfl,
    ⟨_, rfl, rfl, hx, hy, exec_rdWinOrg_of_ofWord rfl⟩,
    ⟨_, rfl, rfl, hw, hh, exec_rdWinSize_of_ofWord rfl⟩⟩

/-! ## CTRL -/

theorem exec_wrCtrl_noStart (hd : startBit d = false) : exec (.wrCtrl d) s = .next (respondOk 0 s) := by
  simp [exec, execWrCtrl, hd]

theorem exec_wrCtrl_start (hd : startBit d = true) :
    exec (.wrCtrl d) s = .next (respondOk 0 (startOperation s)) := by
  simp [exec, execWrCtrl, hd]

theorem startOperation_busy (hb : s.status.busy = true) : startOperation s = setSticky .ovrErr s :=
  if_pos hb

theorem startOperation_invalid (hb : s.status.busy = false)
    (hv : winValid s.winOrg s.winSize = false) : startOperation s = setSticky .cfgErr s := by
  simp [startOperation, hb, hv]

theorem startOperation_empty (hb : s.status.busy = false) (hv : winValid s.winOrg s.winSize = true)
    (he : winEmpty s.winSize = true) : startOperation s = setSticky .doneBit (latchWindow s) := by
  simp [startOperation, hb, hv, he]

theorem startOperation_accepted (hb : s.status.busy = false) (hv : winValid s.winOrg s.winSize = true)
    (he : winEmpty s.winSize = false) : startOperation s =
      ((latchWindow s).moveTo .luma 0 0).withStatus { s.status with busy := true } := by
  simp [startOperation, hb, hv, he]

/-- Settles O20: START is decided by BUSY, then by whether the window fits, then by whether it is empty. -/
theorem ctrlWriteOutcomes : Obligations.CtrlWriteOutcomes := by
  intro s d fits empty window
  refine ⟨decode_registerWord true .ctrl d rfl, fun hd => exec_wrCtrl_noStart hd, ?_, ?_, ?_, ?_⟩
  · intro hd hb
    rw [exec_wrCtrl_start hd, startOperation_busy hb]
    rfl
  · intro hd hb hfits
    rw [exec_wrCtrl_start hd, startOperation_invalid hb (Bool.eq_false_iff.2 (mt winValid_iff.1 hfits))]
    rfl
  · intro hd hb hfits hempty
    rw [exec_wrCtrl_start hd,
      startOperation_empty hb (winValid_iff.2 hfits) (winEmpty_iff.2 hempty)]
    rfl
  · intro hd hb hfits hempty
    rw [exec_wrCtrl_start hd,
      startOperation_accepted hb (winValid_iff.2 hfits) (Bool.eq_false_iff.2 (mt winEmpty_iff.1 hempty))]
    rfl

end Sys2Proof.Machine
end

section
/-! The frame-memory transactions (R190 to R197): the row that each frame descriptor decodes to, the refusal of
every row while BUSY, and what a read answers or a write stores while BUSY = 0. -/

namespace Sys2Proof

/-! ## Descriptors of the frame region -/

/-- A descriptor of the aperture's first byte, with an offset put in its low bits, addresses that offset. -/
theorem mkTd_or_offset (wr : Bool) (size : BitVec 2) (off : FbOff) :
    mkTd wr size 0x8000 ||| off.setWidth 19 = mkTd wr size (fbAddr off) := by
  ext i hi
  simp only [mkTd, fbAddr, BitVec.getElem_or, BitVec.getElem_setWidth, BitVec.getLsbD_setWidth,
    BitVec.getLsbD_append]
  interval_cases i <;> simp

/-- An access to the aperture, of a size that R92 names, is left to the frame region's decoder (R93, case 2). -/
theorem decode_frameWord {base : TD} (wr : Bool) {size : BitVec 2} (off : FbOff) (d : Word)
    (hbase : base = mkTd wr size 0x8000) (hsize : size ≠ sizeReserved) :
    decode ⟨base ||| off.setWidth 19, d⟩ = decodeFrame wr size off d := by
  rw [hbase, mkTd_or_offset, decode_frame (by simpa using hsize) (by simp)]
  simp

theorem decode_frameWord8 {base : TD} (wr : Bool) (off : FbOff) (d : Word)
    (hbase : base = mkTd wr size8 0x8000) :
    decode ⟨base ||| off.setWidth 19, d⟩ = .ok (if wr then .wr8Fb off d else .rd8Fb off) := by
  rw [decode_frameWord wr off d hbase (by decide)]
  exact if_pos rfl

theorem decode_frameWord16 {base : TD} (wr : Bool) {off : FbOff} (d : Word)
    (hbase : base = mkTd wr size16 0x8000) (h2 : off.toNat % 2 = 0) :
    decode ⟨base ||| off.setWidth 19, d⟩ = .ok (if wr then .wr16Fb off d else .rd16Fb off) := by
  rw [decode_frameWord wr off d hbase (by decide)]
  simp [decodeFrame, size8, size16, aligned2_iff.2 h2]

theorem decode_frameWord32 {base : TD} (wr : Bool) {off : FbOff} (d : Word)
    (hbase : base = mkTd wr size32 0x8000) (h4 : off.toNat % 4 = 0) :
    decode ⟨base ||| off.setWidth 19, d⟩ = .ok (if wr then .wr32Fb off d else .rd32Fb off) := by
  rw [decode_frameWord wr off d hbase (by decide)]
  simp [decodeFrame, size8, size16, size32, aligned4_iff.2 h4]

end Sys2Proof

namespace Sys2Proof.Machine

variable {s : State} {off : FbOff} {n : Nat} {d : Word}

/-! ## Refusal while BUSY -/

/-- An instruction of the frame region is a frame read or a frame write of some width (R190). -/
theorem exec_frameRegion {i : Instr} (ha : inAperture i.addr = true) :
    (∃ off n, ∀ s, exec i s = frameRead off n s) ∨ (∃ off n d, ∀ s, exec i s = frameWrite off n d s) := by
  cases i with
  | rd8Fb off => exact .inl ⟨off, 1, fun _ => rfl⟩
  | rd16Fb off => exact .inl ⟨off, 2, fun _ => rfl⟩
  | rd32Fb off => exact .inl ⟨off, 4, fun _ => rfl⟩
  | wr8Fb off d => exact .inr ⟨off, 1, d, fun _ => rfl⟩
  | wr16Fb off d => exact .inr ⟨off, 2, d, fun _ => rfl⟩
  | wr32Fb off d => exact .inr ⟨off, 4, d, fun _ => rfl⟩
  | _ => simp [Instr.addr] at ha

/-- Settles O29: a frame read and a frame write test BUSY first, whatever their width. -/
theorem frameAccessRefusedWhileBusy : Obligations.FrameAccessRefusedWhileBusy := by
  intro i s ha hb
  obtain ⟨off, n, hi⟩ | ⟨off, n, d, hi⟩ := exec_frameRegion ha
  · exact (hi s).trans (frameRead_busy hb)
  · exact (hi s).trans (frameWrite_busy hb)

/-! ## Reads -/

/-- Settles O26: the word is `MemRead`'s, put together from one, two or four bytes (R62). -/
theorem frameReads : Obligations.FrameReads := by
  refine fun s off => ⟨fun d => ⟨decode_frameWord8 false off d rfl, decode_frameWord16 false d rfl,
    decode_frameWord32 false d rfl⟩, fun hb b0 h0 => ⟨?_, fun b1 h1 => ⟨?_, fun b2 b3 h2 h3 => ?_⟩⟩, ?_⟩
  · exact frameRead_some hb (by rw [memRead_one, h0]; rfl)
  · exact frameRead_some hb (memRead_two h0 h1)
  · exact frameRead_some hb (memRead_four h0 h1 h2 h3)
  · intro hb i hi
    have ha : inAperture i.addr = true := by
      simp only [List.mem_cons, List.not_mem_nil, or_false] at hi
      obtain rfl | rfl | rfl := hi <;> exact inAperture_fbAddr off
    exact frameAccessRefusedWhileBusy i s ha hb

/-! ## Writes -/

/-- Byte `k` of a little-endian datum is its bits `8k+7:8k` (R62). -/
theorem lowByte_shiftRight (d : Word) (k : Nat) : lowByte (d >>> (8 * k)) = d.extractLsb' (8 * k) 8 := by
  simp [lowByte, ← BitVec.toNat_inj, BitVec.extractLsb'_toNat]

/-- What a frame write accepted at `off` leaves: its bytes, every other byte, and all other state. -/
theorem frameWrite_stores (hb : s.status.busy = false) : ∃ t, frameWrite off n d s = .next t ∧
    t = { s with fb := t.fb, response := some ⟨false, 0⟩ } ∧
    (∀ k < n, readByte t.fb (off.toNat + k) = some (d.extractLsb' (8 * k) 8)) ∧
    ∀ a, a < off.toNat ∨ off.toNat + n ≤ a → readByte t.fb a = readByte s.fb a := by
  refine ⟨_, frameWrite_idle hb, rfl, fun k hk => ?_, fun a ha => readByte_memWrite_outside ha⟩
  rw [← lowByte_shiftRight]
  exact readByte_memWrite_inside hk

/-- Settles O28: the three rows are one frame write at their widths. -/
theorem frameWrites : Obligations.FrameWrites := by
  refine fun s off d => ⟨decode_frameWord8 true off d rfl, decode_frameWord16 true d rfl,
    decode_frameWord32 true d rfl, fun p hp => ?_⟩
  have hrow : inAperture p.1.addr = true ∧ exec p.1 s = frameWrite off p.2 d s := by
    simp only [List.mem_cons, List.not_mem_nil, or_false] at hp
    obtain rfl | rfl | rfl := hp <;> exact ⟨inAperture_fbAddr off, rfl⟩
  obtain ⟨ha, hexec⟩ := hrow
  exact ⟨fun hb => hexec ▸ frameWrite_stores hb, frameAccessRefusedWhileBusy p.1 s ha⟩

end Sys2Proof.Machine
end

section
/-! The reset values (R241): what each register read answers, by the word of the state that it reads, and the
words of the state after reset. -/

namespace Sys2Proof.Machine

variable (s : State)

/-! ## What a read of a stateful register answers -/

theorem exec_rdStatus : exec .rdStatus s = .next { s with response := some ⟨false, s.status.word⟩ } := rfl

theorem exec_rdIrqEn : exec .rdIrqEn s = .next { s with response := some ⟨false, s.irqEn.word⟩ } := rfl

theorem exec_rdWinOrg : exec .rdWinOrg s = .next { s with response := some ⟨false, s.winOrg.word⟩ } := rfl

theorem exec_rdWinSize : exec .rdWinSize s = .next { s with response := some ⟨false, s.winSize.word⟩ } := rfl

/-! ## The state after reset -/

theorem reset_status_word : State.reset.status.word = 0 := by decide

theorem reset_irqEn_word : State.reset.irqEn.word = 0 := by decide

theorem reset_winOrg_word : State.reset.winOrg.word = 0 := by decide

/-- The window is the whole frame after reset, 128 by 64 (R241). -/
theorem reset_winSize_word : State.reset.winSize.word = 0x00400080 := by decide

/-- Settles O10: the constant registers answer as in every state, the others the words of the reset fields;
from an empty frame memory no byte is read. -/
theorem resetValues : Obligations.ResetValues := by
  obtain ⟨hid, hgeom, hctrl⟩ := constantRegisterReads.2 State.reset
  refine ⟨hid, hgeom, hctrl, ?_, ?_, ?_, ?_, rfl, rfl, rfl, rfl, irqLevel.1, readByte_nil⟩
  · rw [exec_rdStatus, reset_status_word]
  · rw [exec_rdIrqEn, reset_irqEn_word]
  · rw [exec_rdWinOrg, reset_winOrg_word]
  · rw [exec_rdWinSize, reset_winSize_word]

end Sys2Proof.Machine
end

section
/-! Decode and encode (R91 to R93): the fields of a transaction that decodes, each way round, and the rows of
the opcode table as descriptors put together from fields. -/

namespace Sys2Proof

/-! ## Decoding an encoded instruction -/

theorem decode_frameAddr8 {td : TD} (wr : Bool) (off : FbOff) (d : Word)
    (htd : td = mkTd wr size8 (fbAddr off)) :
    decode ⟨td, d⟩ = .ok (if wr then .wr8Fb off d else .rd8Fb off) := by
  rw [htd, ← mkTd_or_offset]
  exact decode_frameWord8 wr off d rfl

theorem decode_frameAddr16 {td : TD} (wr : Bool) {off : FbOff} (d : Word)
    (htd : td = mkTd wr size16 (fbAddr off)) (ha : aligned2 off = true) :
    decode ⟨td, d⟩ = .ok (if wr then .wr16Fb off d else .rd16Fb off) := by
  rw [htd, ← mkTd_or_offset]
  exact decode_frameWord16 wr d rfl (aligned2_iff.1 ha)

theorem decode_frameAddr32 {td : TD} (wr : Bool) {off : FbOff} (d : Word)
    (htd : td = mkTd wr size32 (fbAddr off)) (ha : aligned4 off = true) :
    decode ⟨td, d⟩ = .ok (if wr then .wr32Fb off d else .rd32Fb off) := by
  rw [htd, ← mkTd_or_offset]
  exact decode_frameWord32 wr d rfl (aligned4_iff.1 ha)

/-- Settles O2: a register row by its offset, a frame row by its offset in the aperture and its alignment. -/
theorem decodeOfEncode : Obligations.DecodeOfEncode := by
  intro i hi
  cases i with
  | rdId => exact decode_registerWord false .id 0 rfl
  | wrId d => exact decode_registerWord true .id d rfl
  | rdGeom => exact decode_registerWord false .geom 0 rfl
  | wrGeom d => exact decode_registerWord true .geom d rfl
  | rdCtrl => exact decode_registerWord false .ctrl 0 rfl
  | wrCtrl d => exact decode_registerWord true .ctrl d rfl
  | rdStatus => exact decode_registerWord false .status 0 rfl
  | wrStatus d => exact decode_registerWord true .status d rfl
  | rdIrqEn => exact decode_registerWord false .irqEn 0 rfl
  | wrIrqEn d => exact decode_registerWord true .irqEn d rfl
  | rdWinOrg => exact decode_registerWord false .winOrg 0 rfl
  | wrWinOrg d => exact decode_registerWord true .winOrg d rfl
  | rdWinSize => exact decode_registerWord false .winSize 0 rfl
  | wrWinSize d => exact decode_registerWord true .winSize d rfl
  | rd8Fb off => exact decode_frameAddr8 false off 0 rfl
  | rd16Fb off => exact decode_frameAddr16 false 0 rfl hi
  | rd32Fb off => exact decode_frameAddr32 false 0 rfl hi
  | wr8Fb off d => exact decode_frameAddr8 true off d rfl
  | wr16Fb off d => exact decode_frameAddr16 true d rfl hi
  | wr32Fb off d => exact decode_frameAddr32 true d rfl hi

/-! ## Encoding a decoded transaction -/

/-- What `t` and the instruction `i` have in common when `t` is `i`'s transaction, up to the data that a read
ignores (R91). -/
structure Carries (t : Txn) (i : Instr) : Prop where
  wr : tdWr t.td = i.isWrite
  size : tdSize t.td = i.size
  addr : tdAddr t.td = i.addr
  wdata : i.isWrite = true → i.wdata = t.wdata

theorem carries_regInstr {t : Txn} {r : Reg} (hsize : tdSize t.td = size32)
    (haddr : r.offset = tdAddr t.td) : Carries t (regInstr (tdWr t.td) t.wdata r) := by
  cases hwr : tdWr t.td <;> cases r <;>
    exact ⟨hwr, hsize, haddr.symm, by simp [regInstr, Instr.isWrite, Instr.wdata]⟩

theorem carries_of_decode {t : Txn} {i : Instr} (h : decode t = .ok i) : Carries t i := by
  by_cases hres : tdSize t.td = sizeReserved
  · rw [decode_reserved hres] at h
    cases h
  cases hap : inAperture (tdAddr t.td) with
  | false =>
    rw [decode_register hres hap] at h
    obtain ⟨hsize, r, haddr, rfl⟩ := decodeRegister_ok h
    exact carries_regInstr hsize haddr
  | true =>
    have haddr := (fbAddr_fbOffOf hap).symm
    rw [decode_frame hres hap] at h
    rcases decodeFrame_ok h with ⟨hsize, rfl⟩ | ⟨hsize, _, rfl⟩ | ⟨hsize, _, rfl⟩ <;>
      cases hwr : tdWr t.td <;> exact ⟨hwr, hsize, haddr, by simp [Instr.isWrite, Instr.wdata]⟩

/-- Settles O3: the descriptor is its three fields, and they are the instruction's. -/
theorem encodeOfDecode : Obligations.EncodeOfDecode := by
  intro t i h
  obtain ⟨hwr, hsize, haddr, hdata⟩ := carries_of_decode h
  refine ⟨wellFormed_of_decode h, ?_, hdata⟩
  rw [← mkTd_fields t.td, hwr, hsize, haddr]
  rfl

/-! ## The opcode table (R91) -/

theorem mkTd_inj {wr wr' : Bool} {size size' : BitVec 2} {a a' : Addr} :
    mkTd wr size a = mkTd wr' size' a' ↔ wr = wr' ∧ size = size' ∧ a = a' := by
  constructor
  · intro h
    refine ⟨?_, ?_, ?_⟩
    · simpa using congrArg tdWr h
    · simpa using congrArg tdSize h
    · simpa using congrArg tdAddr h
  · rintro ⟨rfl, rfl, rfl⟩
    rfl

/-- Every row's mask has all bits of WR and SIZE. -/
theorem mkTd_and_mask (wr : Bool) (size : BitVec 2) (a m : Addr) :
    mkTd wr size a &&& mkTd true 0b11#2 m = mkTd wr size (a &&& m) := by
  ext i hi
  simp only [mkTd, BitVec.getElem_and, BitVec.getElem_setWidth, BitVec.getLsbD_append]
  interval_cases i <;> simp

theorem matches_iff {name : String} {wr : Bool} {size : BitVec 2} {v m : Addr} {td : TD} :
    OpcodeRow.matches ⟨name, mkTd wr size v, mkTd true 0b11#2 m⟩ td = true ↔
      tdWr td = wr ∧ tdSize td = size ∧ tdAddr td &&& m = v := by
  rw [OpcodeRow.matches, beq_iff_eq, ← mkTd_fields td, mkTd_and_mask, mkTd_inj]
  simp

/-- The row of a register (R22). -/
def registerRow (wr : Bool) (r : Reg) : OpcodeRow :=
  ⟨(regInstr wr 0 r).mnemonic, mkTd wr size32 r.offset, mkTd true 0b11#2 (BitVec.allOnes 16)⟩

/-- The rows of the frame region: their masks leave out the offset, but for its bits of alignment (R65). -/
def frameRow8 (wr : Bool) : OpcodeRow :=
  ⟨if wr then "WR8_FB" else "RD8_FB", mkTd wr size8 0x8000, mkTd true 0b11#2 0x8000⟩

def frameRow16 (wr : Bool) : OpcodeRow :=
  ⟨if wr then "WR16_FB" else "RD16_FB", mkTd wr size16 0x8000, mkTd true 0b11#2 0x8001⟩

def frameRow32 (wr : Bool) : OpcodeRow :=
  ⟨if wr then "WR32_FB" else "RD32_FB", mkTd wr size32 0x8000, mkTd true 0b11#2 0x8003⟩

theorem registerRows_eq :
    registerRows = allRegs.flatMap fun r => [registerRow false r, registerRow true r] := by decide

theorem frameRows_eq : frameRows =
    [frameRow8 false, frameRow16 false, frameRow32 false, frameRow8 true, frameRow16 true,
      frameRow32 true] := by decide

theorem mem_allRegs (r : Reg) : r ∈ allRegs := by
  cases r <;> decide

theorem mem_opcodeRows {row : OpcodeRow} : row ∈ opcodeRows ↔
    (∃ wr r, row = registerRow wr r) ∨
      ∃ wr, row = frameRow8 wr ∨ row = frameRow16 wr ∨ row = frameRow32 wr := by
  simp only [opcodeRows, registerRows_eq, frameRows_eq, List.mem_append, List.mem_flatMap, mem_allRegs,
    List.mem_cons, List.not_mem_nil, or_false, true_and, Bool.exists_bool]
  rw [exists_or]
  tauto

/-- No two rows have one mnemonic. -/
theorem row_eq_of_mnemonic {r r' : OpcodeRow} (hr : r ∈ opcodeRows) (hr' : r' ∈ opcodeRows)
    (h : r.mnemonic = r'.mnemonic) : r = r' := by
  have hnodup : (opcodeRows.map OpcodeRow.mnemonic).Nodup := by decide
  exact List.inj_on_of_nodup_map hnodup hr hr' h

theorem getLsbD_eq_false_iff {n : Nat} (x : BitVec n) (k : Nat) :
    x.getLsbD k = false ↔ x.toNat / 2 ^ k % 2 = 0 := by
  rw [BitVec.getLsbD, Nat.testBit_eq_decide_div_mod_eq, decide_eq_false_iff_not]
  omega

theorem aligned2_iff_bit {off : FbOff} : aligned2 off = true ↔ off.getLsbD 0 = false := by
  rw [aligned2_iff, getLsbD_eq_false_iff]
  omega

theorem aligned4_iff_bits {off : FbOff} :
    aligned4 off = true ↔ off.getLsbD 0 = false ∧ off.getLsbD 1 = false := by
  rw [aligned4_iff, getLsbD_eq_false_iff, getLsbD_eq_false_iff]
  omega

theorem fbOffOf_getLsbD (a : Addr) {k : Nat} (hk : k < 15) : (fbOffOf a).getLsbD k = a.getLsbD k := by
  simp [fbOffOf, hk]

theorem and_eq_iff_bits {n : Nat} {x m v : BitVec n} :
    x &&& m = v ↔ ∀ k < n, (x.getLsbD k && m.getLsbD k) = v.getLsbD k := by
  simp only [← BitVec.getLsbD_and]
  exact ⟨fun h k _ => h ▸ rfl, fun h => BitVec.eq_of_getLsbD_eq h⟩

theorem and_eq_iff_inAperture {a : Addr} : a &&& 0x8000 = 0x8000 ↔ inAperture a = true := by
  rw [and_eq_iff_bits, inAperture]
  constructor
  · intro h
    simpa using h 15 (by decide)
  · intro h k hk
    interval_cases k <;> simp_all

theorem and_eq_iff_aligned2 {a : Addr} :
    a &&& 0x8001 = 0x8000 ↔ inAperture a = true ∧ aligned2 (fbOffOf a) = true := by
  rw [and_eq_iff_bits, inAperture, aligned2_iff_bit, fbOffOf_getLsbD a (by decide)]
  constructor
  · intro h
    exact ⟨by simpa using h 15 (by decide), by simpa using h 0 (by decide)⟩
  · intro h k hk
    interval_cases k <;> simp_all

theorem and_eq_iff_aligned4 {a : Addr} :
    a &&& 0x8003 = 0x8000 ↔ inAperture a = true ∧ aligned4 (fbOffOf a) = true := by
  rw [and_eq_iff_bits, inAperture, aligned4_iff_bits, fbOffOf_getLsbD a (by decide),
    fbOffOf_getLsbD a (by decide)]
  constructor
  · intro h
    exact ⟨by simpa using h 15 (by decide), by simpa using h 0 (by decide), by simpa using h 1 (by decide)⟩
  · intro h k hk
    interval_cases k <;> simp_all

/-- A frame descriptor is put together from its fields and its offset (R91, R96). -/
theorem eq_mkTd_fbAddr {td : TD} {wr : Bool} {size : BitVec 2} (hwr : tdWr td = wr)
    (hsize : tdSize td = size) (ha : inAperture (tdAddr td) = true) :
    td = mkTd wr size (fbAddr (fbOffOf (tdAddr td))) := by
  rw [fbAddr_fbOffOf ha, ← hwr, ← hsize, mkTd_fields]

/-- What a row matches decodes to an instruction of the row's mnemonic. -/
theorem decode_of_matches {row : OpcodeRow} {td : TD} (d : Word) (hrow : row ∈ opcodeRows)
    (h : row.matches td = true) : ∃ i, decode ⟨td, d⟩ = .ok i ∧ i.mnemonic = row.mnemonic := by
  rcases mem_opcodeRows.1 hrow with ⟨wr, r, rfl⟩ | ⟨wr, rfl | rfl | rfl⟩ <;>
    obtain ⟨hwr, hsize, haddr⟩ := matches_iff.1 h
  · rw [BitVec.and_allOnes] at haddr
    refine ⟨regInstr wr d r, decode_registerWord wr r d ?_, ?_⟩
    · rw [← mkTd_fields td, hwr, hsize, haddr]
    · cases wr <;> cases r <;> rfl
  · have ha := and_eq_iff_inAperture.1 haddr
    exact ⟨_, decode_frameAddr8 wr _ d (eq_mkTd_fbAddr hwr hsize ha), by cases wr <;> rfl⟩
  · obtain ⟨ha, h2⟩ := and_eq_iff_aligned2.1 haddr
    exact ⟨_, decode_frameAddr16 wr d (eq_mkTd_fbAddr hwr hsize ha) h2, by cases wr <;> rfl⟩
  · obtain ⟨ha, h4⟩ := and_eq_iff_aligned4.1 haddr
    exact ⟨_, decode_frameAddr32 wr d (eq_mkTd_fbAddr hwr hsize ha) h4, by cases wr <;> rfl⟩

/-- What decodes has a row, of its mnemonic, that matches. -/
theorem exists_row_of_decode {t : Txn} {i : Instr} (h : decode t = .ok i) :
    ∃ row ∈ opcodeRows, row.mnemonic = i.mnemonic ∧ row.matches t.td = true := by
  by_cases hres : tdSize t.td = sizeReserved
  · rw [decode_reserved hres] at h
    cases h
  cases hap : inAperture (tdAddr t.td) with
  | false =>
    rw [decode_register hres hap] at h
    obtain ⟨hsize, r, haddr, rfl⟩ := decodeRegister_ok h
    refine ⟨registerRow (tdWr t.td) r, mem_opcodeRows.2 (.inl ⟨_, r, rfl⟩), ?_, ?_⟩
    · cases tdWr t.td <;> cases r <;> rfl
    · exact matches_iff.2 ⟨rfl, hsize, by rw [BitVec.and_allOnes, haddr]⟩
  | true =>
    rw [decode_frame hres hap] at h
    rcases decodeFrame_ok h with ⟨hsize, rfl⟩ | ⟨hsize, h2, rfl⟩ | ⟨hsize, h4, rfl⟩
    · refine ⟨frameRow8 (tdWr t.td), mem_opcodeRows.2 (.inr ⟨_, .inl rfl⟩), ?_, ?_⟩
      · cases tdWr t.td <;> rfl
      · exact matches_iff.2 ⟨rfl, hsize, and_eq_iff_inAperture.2 hap⟩
    · refine ⟨frameRow16 (tdWr t.td), mem_opcodeRows.2 (.inr ⟨_, .inr (.inl rfl)⟩), ?_, ?_⟩
      · cases tdWr t.td <;> rfl
      · exact matches_iff.2 ⟨rfl, hsize, and_eq_iff_aligned2.2 ⟨hap, h2⟩⟩
    · refine ⟨frameRow32 (tdWr t.td), mem_opcodeRows.2 (.inr ⟨_, .inr (.inr rfl)⟩), ?_, ?_⟩
      · cases tdWr t.td <;> rfl
      · exact matches_iff.2 ⟨rfl, hsize, and_eq_iff_aligned4.2 ⟨hap, h4⟩⟩

/-- Settles O4: a row matches what decodes to its mnemonic, and no two rows have one mnemonic. -/
theorem decodeAgreesWithOpcodeTable : Obligations.DecodeAgreesWithOpcodeTable := by
  refine ⟨fun t r hr => ⟨decode_of_matches t.wdata hr, ?_⟩, fun t i => exists_row_of_decode, ?_⟩
  · rintro ⟨i, hi, hname⟩
    obtain ⟨r', hr', hname', hmatch⟩ := exists_row_of_decode hi
    rwa [row_eq_of_mnemonic hr hr' (hname.symm.trans hname'.symm)]
  · intro td r hr r' hr' h h'
    obtain ⟨i, hi, hname⟩ := decode_of_matches 0 hr h
    obtain ⟨i', hi', hname'⟩ := decode_of_matches 0 hr' h'
    obtain rfl : i = i' := Except.ok.inj (hi.symm.trans hi')
    exact row_eq_of_mnemonic hr hr' (hname.symm.trans hname')

/-! ## Words of the spec and pseudo-instructions -/

/-- Whether and why a transaction is rejected does not depend on its data. -/
theorem decode_error_of_td_eq {t t' : Txn} {e : DecodeError} (htd : t'.td = t.td)
    (h : decode t = .error e) : decode t' = .error e := by
  by_cases hres : tdSize t.td = sizeReserved
  · rw [decode_reserved hres] at h
    rwa [decode_reserved (htd ▸ hres)]
  cases hap : inAperture (tdAddr t.td) with
  | true =>
    rw [decode_frame hres hap] at h
    rw [decode_frame (htd ▸ hres) (htd ▸ hap), htd]
    unfold decodeFrame at h ⊢
    split_ifs at h ⊢
    exact h
  | false =>
    rw [decode_register hres hap] at h
    rw [decode_register (htd ▸ hres) (htd ▸ hap), htd]
    unfold decodeRegister at h ⊢
    split at h
    · next hsize =>
      rw [if_pos hsize]
      cases hreg : regAt (tdAddr t.td) with
      | none => simpa only [hreg] using h
      | some r =>
        simp only [hreg] at h
        cases h
    · next hsize => rwa [if_neg hsize]

/-- Settles O1: the legal words are put together from fields, the illegal ones evaluated at one `wdata`. -/
theorem specWordsDecode : Obligations.SpecWordsDecode := by
  have illegal {td : TD} {e : DecodeError} (d : Word) (h : decode ⟨td, 0⟩ = .error e) :
      decode ⟨td, d⟩ = .error e := decode_error_of_td_eq (t := ⟨td, 0⟩) rfl h
  refine ⟨fun d => ⟨?_, ?_, ?_, ?_, ?_, ?_, ?_⟩, ?_, fun d => ⟨?_, ?_, ?_, ?_, ?_⟩⟩
  · exact decode_registerWord false .id d rfl
  · exact decode_registerWord true .status d rfl
  · exact decode_registerWord false .winSize d rfl
  · exact decode_frameAddr8 false 0 d (by decide)
  · exact decode_frameAddr8 true 0x7FFF d (by decide)
  · exact decode_frameAddr16 (off := 0x7FFE) false d (by decide) (by decide)
  · exact decode_frameAddr32 (off := 0x7FFC) false d (by decide) (by decide)
  · exact decode_registerWord true .ctrl _ rfl
  · exact illegal d (by decide)
  · exact illegal d (by decide)
  · exact illegal d (by decide)
  · exact illegal d (by decide)
  · exact illegal d (by decide)

end Sys2Proof

namespace Sys2Proof.Machine

theorem decode_asmWr32_offset (r : Reg) (d : Word) :
    decode (asmWr32 r.offset d) = .ok (regInstr true d r) := decode_registerWord true r d rfl

theorem map_decode_asmWaitIdle (n : Nat) :
    (asmWaitIdle n).map decode = List.replicate n (.ok .rdStatus) := by
  rw [asmWaitIdle, List.map_replicate]
  exact congrArg _ (decode_registerWord false .status 0 rfl)

/-- A pixel's symbol is the address of its R byte, whose offset is a multiple of 4 (R61, R101). -/
theorem exists_offset_of_pixel {x y : Nat} (hx : x < 128) (hy : y < 64) : ∃ off : FbOff,
    off.toNat = 4 * (y * 128 + x) ∧ aligned4 off = true ∧ fbSymbol x y = fbAddr off := by
  have hlt := pixelOffset_add_lt hx hy (c := 0) (by decide)
  rw [Nat.add_zero] at hlt
  have hoff : (BitVec.ofNat 15 (pixelOffset x y)).toNat = 4 * (y * 128 + x) := Nat.mod_eq_of_lt hlt
  refine ⟨_, hoff, aligned4_iff.2 ?_, (fbAddr_ofNat hlt).symm⟩
  rw [hoff]
  omega

/-- Settles O7: each transaction of an expansion is a word access of a register or of a pixel. -/
theorem pseudoInstructionsExpand : Obligations.PseudoInstructionsExpand := by
  refine ⟨?_, fun x0 y0 w h => ?_, fun m => ?_, ?_, fun m => ?_, map_decode_asmWaitIdle,
    fun x0 y0 w h n => ?_, fun x y r g b a hx hy => ?_⟩
  · simp [asmStart, decode_asmWr32_offset, regInstr]
  · simp [asmSetWin, decode_asmWr32_offset, regInstr]
  · simp [asmClrStat, decode_asmWr32_offset, regInstr]
  · simp [asmClrAll, decode_asmWr32_offset, regInstr]
  · simp [asmIrqOn, decode_asmWr32_offset, regInstr]
  · simp [asmDither, asmSetWin, asmStart, decode_asmWr32_offset, regInstr, map_decode_asmWaitIdle]
  · obtain ⟨off, hoff, h4, haddr⟩ := exists_offset_of_pixel hx hy
    refine ⟨off, hoff, ?_, ?_⟩
    · simp [asmRdPix, asmRd32, haddr, decode_frameAddr32 false _ rfl h4]
    · simp [asmWrPix, asmWr32, haddr, decode_frameAddr32 true _ rfl h4]

end Sys2Proof.Machine
end

section
/-! Turns and the reset pin (R63, R69, R240 to R243): which turn is taken, what a step does on each, and what
reset leaves. -/

namespace Sys2Proof.Machine

variable {s s' : State} {ts : List Turn}

/-! ## The turn taken -/

theorem takeTurn_cons {turn : Turn} (h : s.turns = turn :: ts) :
    takeTurn s = (turn, { s with turns := ts }) := by
  simp only [takeTurn, h]

theorem takeTurn_nil (h : s.turns = []) : takeTurn s = (defaultTurn s, s) := by
  simp only [takeTurn, h]

theorem defaultTurn_enabled (h : engineEnabled s = true) : defaultTurn s = .engine := if_pos h

theorem defaultTurn_disabled (h : engineEnabled s = false) : defaultTurn s = .host := by
  simp [defaultTurn, h]

theorem step_engine (h : takeTurn s = (.engine, s')) : step s = engineStep s' := by
  simp only [step, h]

theorem step_host_nothing (h : takeTurn s = (.host, s')) (hp : present s' = .nothing) :
    step s = .next s' := by
  simp only [step, h, hp]

theorem step_assertReset (h : takeTurn s = (.assertReset, s')) : step s = .next (assertReset s') := by
  simp only [step, h]

theorem step_releaseReset (h : takeTurn s = (.releaseReset, s')) :
    step s = .next (releaseReset s') := by
  simp only [step, h]

theorem present_inReset (h : s.rstN = false) : present s = .nothing := by
  simp [present, h]

theorem present_empty (h : s.hostQueue = []) : present s = .nothing := by
  simp [present, h]

theorem engineEnabled_inReset (h : s.rstN = false) : engineEnabled s = false := by
  simp [engineEnabled, h]

theorem engineEnabled_idle (h : s.status.busy = false) : engineEnabled s = false := by
  simp [engineEnabled, h]

theorem step_default_engine (hts : s.turns = []) (he : engineEnabled s = true) :
    step s = engineStep s :=
  step_engine ((takeTurn_nil hts).trans (by rw [defaultTurn_enabled he]))

/-- Settles O8: the turn taken, and what is then presented. -/
theorem stepPerformsTheTurn : Obligations.StepPerformsTheTurn := by
  refine fun s => ⟨fun t q i hr hq hd => ⟨fun ts hts => ?_, fun hts hoff => ?_⟩, fun ts hts => ?_,
    step_default_engine⟩
  · exact step_host_row (takeTurn_host (.inl hts)) hr hq hd
  · have hstep := step_host_row (takeTurn_host (.inr ⟨hts, rfl, hoff⟩)) hr hq hd
    rwa [← hts] at hstep
  · exact step_engine (takeTurn_cons hts)

/-! ## Reset -/

theorem releaseReset_inReset (h : s.rstN = false) : releaseReset s = resetBlock true s := by
  simp [releaseReset, h]

/-- Releasing the pin ends a reset, or changes nothing where it is released already. -/
theorem releaseReset_cases (s : State) :
    (s.rstN = true ∧ releaseReset s = s) ∨ (s.rstN = false ∧ releaseReset s = resetBlock true s) := by
  cases hr : s.rstN with
  | true => exact .inl ⟨rfl, if_pos hr⟩
  | false => exact .inr ⟨rfl, releaseReset_inReset hr⟩

/-- Settles O9: in reset nothing is presented and no engine step is enabled. -/
theorem resetPin : Obligations.ResetPin := by
  intro s ts
  refine ⟨fun hts => ?_, fun hr hts => ?_, fun hr hts => ?_, fun hr hts => ?_⟩
  · exact step_assertReset (takeTurn_cons hts)
  · exact step_host_nothing (takeTurn_cons hts) (present_inReset hr)
  · rw [step_engine (takeTurn_cons hts)]
    exact engineStep_disabled (engineEnabled_inReset hr)
  · rw [step_releaseReset (takeTurn_cons hts), releaseReset_inReset (by exact hr)]
    rfl

/-- Two turns of the pin, wherever they begin. -/
theorem core_run_reset {n : Nat} (hts : s.turns = .assertReset :: .releaseReset :: ts) :
    Sys2Proof.core.run (n + 2) s =
      Sys2Proof.core.run n { State.reset with hostQueue := s.hostQueue, turns := ts } := by
  rw [core_run_next ((resetPin s _).1 hts)]
  exact core_run_next ((resetPin _ ts).2.2.2 rfl rfl)

/-- Settles O11: each pair of turns leads to the reset values, whatever the state before. -/
theorem resetEndsOperation : Obligations.ResetEndsOperation := by
  intro s ts
  constructor
  · intro hts
    rw [core_run_reset hts, core_run_zero]
  · intro hts
    rw [core_run_reset hts]
    exact core_run_reset rfl

/-- Settles O12: no step is enabled, and the default turn then finds nothing presented. -/
theorem idleBlockKeepsItsState : Obligations.IdleBlockKeepsItsState := by
  intro s
  have hstays (hts : s.turns = []) (hq : s.hostQueue = []) (hb : s.status.busy = false) :
      step s = .next s := by
    have hturn := takeTurn_nil hts
    rw [defaultTurn_disabled (engineEnabled_idle hb)] at hturn
    exact step_host_nothing hturn (present_empty hq)
  refine ⟨fun hb => ?_, hstays, fun hts hfinal => ?_⟩
  · have hoff := engineEnabled_idle hb
    exact ⟨hoff, engineStep_disabled hoff⟩
  · simp only [State.final, Bool.and_eq_true, Bool.not_eq_true', List.isEmpty_iff] at hfinal
    obtain ⟨⟨⟨_, hb⟩, hq⟩, _⟩ := hfinal
    exact hstays hts hq hb

/-! ## The invariants at reset -/

theorem reset_latch_fits : State.reset.latch.fits := ⟨by decide, by decide⟩

theorem resetBlock_inv (level : Bool) (s : State) : (resetBlock level s).Inv := by
  have hidle : (resetBlock true s).Inv :=
    .idle rfl rfl rfl ⟨.nil, by simp [State.reset]⟩ .nil reset_latch_fits ⟨Nat.zero_le _, Nat.zero_le _⟩
  cases level with
  | true => exact hidle
  | false => exact { hidle with heldInReset := fun _ => rfl }

theorem resetBlock_grayInv (level : Bool) (s : State) : (resetBlock level s).GrayInv where
  range := by simp [State.reset]
  luma := by simp [State.reset]
  diffuse := by simp [State.reset]

/-- Settles O44: with PHASE IDLE and `GW` empty there is little to hold. -/
theorem invAtReset : Obligations.InvAtReset :=
  ⟨resetBlock_inv true State.reset, resetBlock_grayInv true State.reset⟩

end Sys2Proof.Machine
end

section
/-! Transactions in general (R66, R67, R90, R150, R210): the two regions, what each answers, and what any of them
may change in the state. -/

namespace Sys2Proof.Machine

variable {s t u : State} {i : Instr} {off : FbOff} {n : Nat} {d : Word}

/-! ## The two regions -/

/-- A register row answers OK, a write of one with 0 (R150). -/
theorem exec_registerRegion (s : State) (ha : inAperture i.addr = false) :
    ∃ u v, exec i s = .next (respondOk v u) ∧ (i.isWrite = true → v = 0) := by
  cases i with
  | rdId | rdGeom | rdCtrl | rdStatus | rdIrqEn | rdWinOrg | rdWinSize =>
    exact ⟨_, _, rfl, fun hw => by cases hw⟩
  | wrId | wrGeom | wrCtrl | wrStatus | wrIrqEn | wrWinOrg | wrWinSize =>
    exact ⟨_, _, rfl, fun _ => rfl⟩
  | _ => simp [Instr.addr] at ha

theorem frameRead_response (h : frameRead off n s = .next t) :
    ∃ r, t.response = some r ∧ (r.err = true → r.rdata = 0) := by
  rcases frameRead_next_cases h with ⟨_, rfl⟩ | ⟨_, v, _, rfl⟩
  · exact ⟨_, rfl, fun _ => rfl⟩
  · exact ⟨_, rfl, by simp⟩

theorem frameWrite_response (h : frameWrite off n d s = .next t) :
    ∃ r, t.response = some r ∧ r.rdata = 0 := by
  rcases frameWrite_next_cases h with ⟨_, rfl⟩ | ⟨_, rfl⟩ <;> exact ⟨_, rfl, rfl⟩

/-- Settles O25: an access refused answers 0, and so does every write. -/
theorem errAndWriteResponsesCarryZero : Obligations.ErrAndWriteResponsesCarryZero := by
  intro i s t h
  cases ha : inAperture i.addr with
  | false =>
    obtain ⟨u, v, hu, hv⟩ := exec_registerRegion s ha
    obtain rfl : respondOk v u = t := Host.Outcome.next.inj (hu.symm.trans h)
    exact ⟨_, rfl, fun hr => hv (hr.resolve_left (by simp))⟩
  | true =>
    cases i with
    | rd8Fb | rd16Fb | rd32Fb =>
      obtain ⟨r, hr, hzero⟩ := frameRead_response h
      exact ⟨r, hr, fun he => hzero (he.resolve_right (by simp [Instr.isWrite]))⟩
    | wr8Fb | wr16Fb | wr32Fb =>
      obtain ⟨r, hr, hzero⟩ := frameWrite_response h
      exact ⟨r, hr, fun _ => hzero⟩
    | _ => simp [Instr.addr] at ha

/-! ## What a START leaves alone -/

theorem startOperation_frame (s : State) :
    (startOperation s).fb = s.fb ∧ (startOperation s).gw = s.gw := by
  rcases startOperation_cases s with ⟨_, e⟩ | ⟨_, _, e⟩ | ⟨_, _, _, e⟩ | ⟨_, _, _, e⟩ <;> rw [e] <;>
    exact ⟨rfl, rfl⟩

theorem Performed.gw_eq (h : Performed i s u) : u.gw = s.gw := by
  cases h with
  | started => exact (startOperation_frame s).2
  | _ => rfl

/-- Only a store changes frame memory. -/
theorem Performed.fb_eq (h : Performed i s u) (ha : inAperture i.addr = false) : u.fb = s.fb := by
  cases h with
  | started => exact (startOperation_frame s).1
  | stored off n d haddr => simp [haddr] at ha
  | _ => rfl

/-- Settles O22: the answer of the region, and what any transaction keeps. -/
theorem registerTransactionsAnswerOk : Obligations.RegisterTransactionsAnswerOk := by
  intro i s ha
  obtain ⟨u, v, hu, hv⟩ := exec_registerRegion s ha
  obtain ⟨hq, hts, hr⟩ := exec_outside hu
  obtain ⟨w, r, hw, he⟩ := exec_next_cases hu
  have hgw : (respondOk v u).gw = s.gw := by rw [he, State.respond_gw, hw.gw_eq]
  have hfb : (respondOk v u).fb = s.fb := by rw [he, State.respond_fb, hw.fb_eq ha]
  exact ⟨_, v, hu, rfl, hv, hgw, hr, hq, hts, fun a => by rw [hfb]⟩

/-! ## Reads (R66) -/

theorem Performed.of_read (h : Performed i s u) (hr : i.isWrite = false)
    (hb : (inAperture i.addr && s.status.busy) = false) : u = s := by
  cases h with
  | kept => rfl
  | started d hi | statusCleared d hi | enablesSet d hi | originSet d hi | sizeSet d hi =>
    rw [hi] at hr
    cases hr
  | refused ha hbusy => simp [ha, hbusy] at hb
  | stored _ _ _ _ hw => simp [hw] at hr

/-- Settles O23: a frame read while BUSY is refused, any other read keeps the state. -/
theorem readsHaveNoOtherSideEffect : Obligations.ReadsHaveNoOtherSideEffect := by
  intro i s t hr h
  cases hb : inAperture i.addr && s.status.busy with
  | true =>
    obtain ⟨ha, hbusy⟩ := Bool.and_eq_true_iff.1 hb
    rw [frameAccessRefusedWhileBusy i s ha hbusy] at h
    cases h
    simp
  | false =>
    obtain ⟨u, r, hu, rfl⟩ := exec_next_cases h
    rw [hu.of_read hr hb]
    simp [State.respond]

/-! ## Repetition (R67) -/

theorem Status.clear_clear (d : Word) (s : Status) : (s.clear d).clear d = s.clear d := by
  simp [Status.clear]

theorem memWrite_sorted {m : Memory} (h : cellsSorted m) (a n : Nat) (v : Word) :
    cellsSorted (memWrite m a n v) := by
  induction n generalizing m a v with
  | zero => exact h
  | succ n ih => exact ih (cellSet_sorted h) _ _

/-- Storing the same bytes again changes nothing. -/
theorem memWrite_memWrite {m : Memory} (h : cellsSorted m) (a n : Nat) (v : Word) :
    memWrite (memWrite m a n v) a n v = memWrite m a n v := by
  refine cells_ext (memWrite_sorted (memWrite_sorted h ..) ..) (memWrite_sorted h ..) fun b => ?_
  change readByte (memWrite (memWrite m a n v) a n v) b = readByte (memWrite m a n v) b
  by_cases hb : a ≤ b ∧ b < a + n
  · obtain ⟨k, rfl⟩ := Nat.exists_eq_add_of_le hb.1
    rw [readByte_memWrite_inside (by omega), readByte_memWrite_inside (by omega)]
  · exact readByte_memWrite_outside (by omega)

theorem frameRead_idempotent (h : frameRead off n s = .next t) : frameRead off n t = .next t := by
  rcases frameRead_next_cases h with ⟨hb, rfl⟩ | ⟨hb, v, hv, rfl⟩
  · exact frameRead_busy hb
  · exact frameRead_some hb hv

theorem frameWrite_idempotent (hs : cellsSorted s.fb) (h : frameWrite off n d s = .next t) :
    frameWrite off n d t = .next t := by
  rcases frameWrite_next_cases h with ⟨hb, rfl⟩ | ⟨hb, rfl⟩
  · exact frameWrite_busy hb
  · rw [frameWrite_idle (by exact hb)]
    simp [respondOk, State.respond, State.withFb, memWrite_memWrite hs]

/-- Settles O24: a register write stores fields of its data, a frame write its bytes, a read nothing. -/
theorem repeatedTransactionsIdempotent : Obligations.RepeatedTransactionsIdempotent := by
  intro i s t hwf hctrl h
  cases ha : inAperture i.addr with
  | true =>
    rcases exec_frameRegion ha with ⟨off, n, hi⟩ | ⟨off, n, d, hi⟩ <;> rw [hi] at h ⊢
    · exact frameRead_idempotent h
    · exact frameWrite_idempotent hwf.1 h
  | false =>
    cases i with
    | wrCtrl d => exact absurd rfl (hctrl d)
    | wrStatus d =>
      cases h
      simp [exec, execWrStatus, respondOk, State.respond, State.withStatus, Status.clear_clear]
    | rdId | wrId | rdGeom | wrGeom | rdCtrl | rdStatus | rdIrqEn | wrIrqEn | rdWinOrg | wrWinOrg
    | rdWinSize | wrWinSize =>
      cases h
      rfl
    | _ => simp [Instr.addr] at ha

/-! ## The sticky bits (R210) -/

/-- What performing `i` does to STATUS. -/
theorem Performed.status_cases (h : Performed i s u) :
    u.status = s.status ∨
    (∃ d, i = .wrStatus d ∧ u.status = s.status.clear d) ∨
    (∃ d, i = .wrCtrl d ∧ startBit d = true ∧
      ((s.status.busy = true ∧ u.status = s.status.raise .ovrErr) ∨
        (s.status.busy = false ∧ winValid s.winOrg s.winSize = false ∧
          u.status = s.status.raise .cfgErr) ∨
        (s.status.busy = false ∧ winValid s.winOrg s.winSize = true ∧ winEmpty s.winSize = true ∧
          u.status = s.status.raise .doneBit) ∨
        (s.status.busy = false ∧ u.status = { s.status with busy := true }))) ∨
    (inAperture i.addr = true ∧ s.status.busy = true ∧ u.status = s.status.raise .accErr) := by
  cases h with
  | started d hi hd =>
    refine .inr (.inr (.inl ⟨d, hi, hd, ?_⟩))
    rcases startOperation_cases s with ⟨hb, e⟩ | ⟨hb, hv, e⟩ | ⟨hb, hv, he, e⟩ | ⟨hb, _, _, e⟩ <;> rw [e]
    · exact .inl ⟨hb, rfl⟩
    · exact .inr (.inl ⟨hb, hv, rfl⟩)
    · exact .inr (.inr (.inl ⟨hb, hv, he, rfl⟩))
    · exact .inr (.inr (.inr ⟨hb, rfl⟩))
  | statusCleared d hi => exact .inr (.inl ⟨d, hi, rfl⟩)
  | refused ha hb => exact .inr (.inr (.inr ⟨ha, hb, rfl⟩))
  | _ => exact .inl rfl

/-- Settles O33: only WR_STATUS clears a bit, and each other event raises the one bit it names. -/
theorem transactionsChangeStickyBitsOnlyByTheirEvents :
    Obligations.TransactionsChangeStickyBitsOnlyByTheirEvents := by
  intro i s t h fits
  obtain ⟨u, r, hu, rfl⟩ := exec_next_cases h
  rw [State.respond_status]
  rcases hu.status_cases with hst | ⟨d, rfl, hst⟩ | ⟨d, rfl, hd, hstart⟩ | ⟨ha, hb, hst⟩
  · rw [hst]
    simp_all
  · rw [hst]
    simp_all [Status.clear, Cause.bit]
  · rcases hstart with ⟨hb, hst⟩ | ⟨hb, hv, hst⟩ | ⟨hb, hv, he, hst⟩ | ⟨hb, hst⟩ <;> rw [hst]
    · simp_all [Status.raise, startBit]
    · have hfits : ¬fits := fun hf => Bool.false_ne_true (hv.symm.trans (winValid_iff.2 hf))
      simp_all [Status.raise, startBit]
    · have hfits : fits := winValid_iff.1 hv
      have hempty := winEmpty_iff.1 he
      simp_all [Status.raise, startBit]
    · simp_all
  · rw [hst]
    simp_all [Status.raise]

/-- Settles O21: a START raises one bit or accepts the window, and without it STATUS stays. -/
theorem startReportsOneOutcome : Obligations.StartReportsOneOutcome := by
  intro s t d h
  obtain ⟨u, r, hu, rfl⟩ := exec_next_cases h
  rw [State.respond_status]
  rcases hu.status_cases with hst | ⟨_, hi, _⟩ | ⟨_, _, _, hstart⟩ | ⟨ha, _⟩
  · simp [hst]
  · cases hi
  · rcases hstart with ⟨_, hst⟩ | ⟨_, _, hst⟩ | ⟨_, _, _, hst⟩ | ⟨_, hst⟩ <;> rw [hst]
    · cases s.status.ovrErr <;> simp [Status.raise]
    · cases s.status.cfgErr <;> simp [Status.raise]
    · cases s.status.done <;> simp [Status.raise]
    · simp
  · simp [Instr.addr] at ha

/-! ## While an operation runs (R71) -/

theorem raise_busy (c : Cause) (x : Status) : (x.raise c).busy = x.busy := by
  cases c <;> rfl

theorem setSticky_operation (c : Cause) (s : State) : (setSticky c s).operation = s.operation := by
  rw [operation_eq_iff]
  exact ⟨rfl, rfl, rfl, rfl, rfl, rfl, raise_busy c s.status⟩

/-- Settles O35: while BUSY a START is an overrun, a frame access is refused, and no other row reaches the
operation's state. -/
theorem noTransactionTouchesARunningOperation : Obligations.NoTransactionTouchesARunningOperation := by
  intro i s t hb h
  obtain ⟨u, r, hu, rfl⟩ := exec_next_cases h
  change u.operation = s.operation
  cases hu with
  | started => rw [startOperation_busy hb, setSticky_operation]
  | refused => exact setSticky_operation _ _
  | stored _ _ _ _ _ _ hidle => simp [hb] at hidle
  | _ => rfl

/-! ## Frame accesses while BUSY = 0 -/

/-- Settles O27: `MemRead` fails exactly at a byte that holds no value. -/
theorem unwrittenFrameReadFaults : Obligations.UnwrittenFrameReadFaults := by
  intro s off hb p hp
  have hrow : exec p.1 s = frameRead off p.2 s := by
    simp only [List.mem_cons, List.not_mem_nil, or_false] at hp
    obtain rfl | rfl | rfl := hp <;> rfl
  rw [hrow, ← memRead_eq_none]
  cases hv : memRead s.fb off.toNat p.2 with
  | none => simp [frameRead_none hb hv]
  | some v => simp [frameRead_some hb hv]

/-- `MemWrite` looks at the bytes it stores and no other bit of its data. -/
theorem memWrite_congr {m : Memory} {a n : Nat} {v v' : Word}
    (h : ∀ k < n, v.extractLsb' (8 * k) 8 = v'.extractLsb' (8 * k) 8) :
    memWrite m a n v = memWrite m a n v' := by
  simp only [← lowByte_shiftRight] at h
  induction n generalizing m a v v' with
  | zero => rfl
  | succ n ih =>
    have hlow : lowByte v = lowByte v' := by simpa using h 0 (by omega)
    rw [memWrite, memWrite, hlow]
    refine ih fun k hk => ?_
    have hbyte := h (k + 1) (by omega)
    rwa [show 8 * (k + 1) = 8 + 8 * k by omega, BitVec.shiftRight_add, BitVec.shiftRight_add] at hbyte

theorem frameWrite_congr {d' : Word} (s : State) (off : FbOff)
    (h : ∀ k < n, d.extractLsb' (8 * k) 8 = d'.extractLsb' (8 * k) 8) :
    frameWrite off n d s = frameWrite off n d' s := by
  simp only [frameWrite, memWrite_congr h]

theorem extractLsb'_byte_of_low16 (d : Word) {k : Nat} (hk : k < 2) :
    d.extractLsb' (8 * k) 8 = (d.extractLsb' 0 16).extractLsb' (8 * k) 8 := by
  ext i hi
  simp
  omega

/-- Settles O31: the bytes a narrow write stores are those of the low half or the low byte. -/
theorem narrowWritesIgnoreUpperData : Obligations.NarrowWritesIgnoreUpperData := by
  refine fun s off d d' => ⟨fun h => frameWrite_congr s off fun k hk => ?_,
    fun h => frameWrite_congr s off fun k hk => ?_⟩
  · obtain rfl : k = 0 := by omega
    exact h
  · rw [extractLsb'_byte_of_low16 d hk, extractLsb'_byte_of_low16 d' hk, h]

theorem word_eq_bytes (d : Word) : (d.extractLsb' 24 8 ++ d.extractLsb' 16 8 ++ d.extractLsb' 8 8 ++
    d.extractLsb' 0 8).setWidth 32 = d := by
  ext i hi
  simp only [BitVec.getElem_setWidth, BitVec.getLsbD_append, BitVec.getLsbD_extractLsb']
  interval_cases i <;> simp

theorem extractLsb'_half_eq_bytes (d : Word) (k : Nat) :
    d.extractLsb' (k + 8) 8 ++ d.extractLsb' k 8 = d.extractLsb' k 16 := by
  ext i hi
  simp only [BitVec.getElem_extractLsb', BitVec.getElem_append]
  split
  · rfl
  · rw [show k + 8 + (i - 8) = k + i by omega]

theorem fbOff_add_toNat {off m : FbOff} (h4 : aligned4 off = true) (hm : m.toNat < 4) :
    (off + m).toNat = off.toNat + m.toNat := by
  rw [aligned4_iff] at h4
  have := off.isLt
  rw [BitVec.toNat_add]
  omega

/-- Settles O30: the four bytes stored, joined again by one, two or four. -/
theorem mixedWidthReadsSeeTheSameBytes : Obligations.MixedWidthReadsSeeTheSameBytes := by
  intro s t off d hb h4 h
  obtain ⟨t', ht', hframe, hbytes, _⟩ := frameWrite_stores (off := off) (n := 4) (d := d) hb
  obtain rfl : t' = t := Host.Outcome.next.inj (ht'.symm.trans h)
  have hbt : t'.status.busy = false := by rw [hframe]; exact hb
  refine ⟨?_, fun m hm => ?_, fun m hm => ?_⟩
  · refine frameRead_some hbt ((memRead_four (hbytes 0 (by decide)) (hbytes 1 (by decide))
      (hbytes 2 (by decide)) (hbytes 3 (by decide))).trans ?_)
    exact congrArg some (word_eq_bytes d)
  · refine frameRead_some hbt ?_
    rw [fbOff_add_toNat h4 (by omega), memRead_two (hbytes m.toNat (by omega))
      (hbytes (m.toNat + 1) (by omega)), Nat.mul_succ, extractLsb'_half_eq_bytes]
  · refine frameRead_some hbt ?_
    rw [fbOff_add_toNat h4 hm, memRead_one, hbytes m.toNat hm]
    rfl

end Sys2Proof.Machine
end

section
/-! What every step keeps (R38 to R40, R120, R127, R130): a step is one of a few moves, and each keeps the
invariant of the block and the range of the working values. -/

namespace Sys2Proof.Machine

variable {s t u : State} {i : Instr}

/-! ## BUSY and PHASE -/

/-- A transaction keeps BUSY and PHASE, or is a START accepted. -/
theorem Performed.busy_phase (h : Performed i s u) :
    (u.status.busy = s.status.busy ∧ u.phase = s.phase) ∨ (u.status.busy = true ∧ u.phase ≠ .idle) := by
  cases h with
  | started =>
    rcases startOperation_cases s with ⟨_, e⟩ | ⟨_, _, e⟩ | ⟨_, _, _, e⟩ | ⟨_, _, _, e⟩ <;> rw [e]
    · exact .inl ⟨rfl, rfl⟩
    · exact .inl ⟨rfl, rfl⟩
    · exact .inl ⟨rfl, rfl⟩
    · exact .inr ⟨rfl, by simp⟩
  | _ => exact .inl ⟨rfl, rfl⟩

theorem advance_phase (ph : Phase) (s : State) :
    (advance ph s).phase = s.phase ∨ (advance ph s).phase = .diffuse := by
  rcases advance_cases ph s with ⟨_, h⟩ | h <;> rw [h]
  · exact .inr rfl
  · exact .inl rfl

/-- An engine step keeps BUSY and PHASE, keeps both active, or is `COMPLETE_STEP`. -/
theorem engineStep_busy_phase (h : engineStep s = .next t) :
    (t.status.busy = s.status.busy ∧ t.phase = s.phase) ∨ (t.status.busy = true ∧ t.phase ≠ .idle) ∨
    (s.phase = .diffuse ∧ s.cy = s.latch.ah.toNat ∧ t.status.busy = false ∧ t.phase = .idle ∧
      t.status.done = true) := by
  rcases engineStep_next_cases h with ⟨_, rfl⟩ | ⟨_, hb, hp, v, _, rfl⟩ | ⟨_, hb, hp, _, rfl⟩ |
    ⟨_, _, hp, hy, rfl⟩
  · exact .inl ⟨rfl, rfl⟩
  · refine .inr (.inl ⟨by simpa using hb, ?_⟩)
    rcases advance_phase .luma (s.withGw (graySet s.gw s.cy s.cx v)) with he | he <;> simp [he, hp]
  · rw [visitStep_eq]
    exact .inl ⟨rfl, rfl⟩
  · exact .inr (.inr ⟨hp, hy, rfl, rfl, rfl⟩)

/-- A step keeps BUSY and PHASE, leaves both active, or ends the operation in one of three ways. -/
theorem step_busy_phase (h : step s = .next t) :
    (t.status.busy = s.status.busy ∧ t.phase = s.phase) ∨ (t.status.busy = true ∧ t.phase ≠ .idle) ∨
    (t.status.busy = false ∧ t.phase = .idle ∧
      ((takeTurn s).1 = .assertReset ∨ ((takeTurn s).1 = .releaseReset ∧ s.rstN = false) ∨
        ((takeTurn s).1 = .engine ∧ s.phase = .diffuse ∧ s.cy = s.latch.ah.toNat ∧
          t.phase = .idle ∧ t.status.done = true))) := by
  rcases step_next_cases h with ⟨q, ts, i, _, _, _, hexec⟩ | ⟨q, ts, _, _, rfl⟩ | ⟨ts, _, _, rfl⟩ |
    ⟨ts, hturn, hengine⟩ | ⟨ts, hturn, rfl⟩ | ⟨ts, hturn, rfl⟩
  · obtain ⟨u, r, hu, rfl⟩ := exec_next_cases hexec
    rcases hu.busy_phase with hkept | hactive
    · exact .inl hkept
    · exact .inr (.inl hactive)
  · exact .inl ⟨rfl, rfl⟩
  · exact .inl ⟨rfl, rfl⟩
  · rcases engineStep_busy_phase hengine with hkept | hactive | ⟨hp, hy, hb, hidle, hdone⟩
    · exact .inl hkept
    · exact .inr (.inl hactive)
    · exact .inr (.inr ⟨hb, hidle, .inr (.inr ⟨hturn, hp, hy, hidle, hdone⟩)⟩)
  · exact .inr (.inr ⟨rfl, rfl, .inl hturn⟩)
  · rcases releaseReset_cases { s with turns := ts } with ⟨_, e⟩ | ⟨hr, e⟩ <;> rw [e]
    · exact .inl ⟨rfl, rfl⟩
    · exact .inr (.inr ⟨rfl, rfl, .inr (.inl ⟨hturn, hr⟩)⟩)

/-- Settles O46: in each case of `step_busy_phase` the two agree after the step. -/
theorem stepKeepsBusyIffActive : Obligations.StepKeepsBusyIffActive := by
  intro s t hs h
  rcases step_busy_phase h with ⟨hb, hp⟩ | ⟨hb, hp⟩ | ⟨hb, hp, _⟩
  · rw [hb, hp]
    exact hs
  · exact iff_of_true hb hp
  · simp [hb, hp]

/-- Settles O34: only the last case of `step_busy_phase` has BUSY fall. -/
theorem busyFallsOnlyAtCompletionOrReset : Obligations.BusyFallsOnlyAtCompletionOrReset := by
  intro s t h hs ht
  rcases step_busy_phase h with ⟨hb, _⟩ | ⟨hb, _⟩ | ⟨_, _, hcause⟩
  · simp [hs, ht] at hb
  · simp [ht] at hb
  · exact hcause

/-! ## A property that every move keeps, every step keeps -/

/-- `P` is kept by each move that a step is made of. -/
structure KeptByMoves (P : State → Prop) : Prop where
  outside : ∀ {s} q ts, P s → P { s with hostQueue := q, turns := ts }
  answer : ∀ {s} r, P s → s.rstN = true → P (s.respond r)
  transaction : ∀ {s t i}, P s → s.rstN = true → i.wellFormed = true → exec i s = .next t → P t
  engine : ∀ {s t}, P s → engineStep s = .next t → P t
  reset : ∀ level s, P (resetBlock level s)

theorem KeptByMoves.step {P : State → Prop} (hP : KeptByMoves P) (hs : P s) (h : step s = .next t) :
    P t := by
  rcases step_next_cases h with ⟨q, ts, i, _, hr, hi, hexec⟩ | ⟨q, ts, _, hr, rfl⟩ | ⟨ts, _, _, rfl⟩ |
    ⟨ts, _, hengine⟩ | ⟨ts, _, rfl⟩ | ⟨ts, _, rfl⟩
  · exact hP.transaction (hP.outside q ts hs) hr hi hexec
  · exact hP.answer ⟨true, 0⟩ (hP.outside q ts hs) hr
  · exact hP.outside s.hostQueue ts hs
  · exact hP.engine (hP.outside s.hostQueue ts hs) hengine
  · exact hP.reset false _
  · rcases releaseReset_cases { s with turns := ts } with ⟨_, e⟩ | ⟨_, e⟩ <;> rw [e]
    · exact hP.outside s.hostQueue ts hs
    · exact hP.reset true _

/-! ## The invariant under the host's moves -/

theorem State.Inv.outside (h : s.Inv) (q : List Txn) (ts : List Turn) :
    State.Inv { s with hostQueue := q, turns := ts } := by
  by_cases hr : s.rstN = true
  · exact h.of_operation rfl hr
  · have hheld := resetBlock_inv false { s with hostQueue := q, turns := ts }
    rw [h.heldInReset (Bool.eq_false_iff.2 hr)]
    exact hheld

/-- A START that is accepted puts the cursor on the first pixel of a window that fits (R156). -/
theorem startOperation_accepted_inv (h : s.Inv) (hr : s.rstN = true)
    (hv : winValid s.winOrg s.winSize = true) (he : winEmpty s.winSize = false) :
    (((latchWindow s).moveTo .luma 0 0).withStatus { s.status with busy := true }).Inv := by
  obtain ⟨hw, hh⟩ : 0 < s.winSize.w.toNat ∧ 0 < s.winSize.h.toNat := by
    have hne := mt winEmpty_iff.2 (Bool.eq_false_iff.1 he)
    simp only [← BitVec.toNat_inj, not_or] at hne
    exact ⟨Nat.pos_of_ne_zero hne.1, Nat.pos_of_ne_zero hne.2⟩
  constructor
  case busyIffActive => simp
  case fbWf => exact h.fbWf
  case gwSorted => exact h.gwSorted
  case latchFits => exact winValid_iff.1 hv
  case cursorRange => exact ⟨Nat.zero_le _, Nat.zero_le _⟩
  case lumaCursor => exact fun _ => ⟨hw, hh⟩
  case diffuseCursor => simp
  case lumaWritten => simp [before]
  case diffuseWritten => simp
  case heldInReset => simp [latchWindow, hr]

theorem State.Inv.phase_idle (h : s.Inv) (hb : s.status.busy = false) : s.phase = .idle := by
  have hn := mt h.busyIffActive.2 (by simp [hb])
  simpa using hn

theorem exec_keeps_inv (h : s.Inv) (hr : s.rstN = true) (hi : i.wellFormed = true)
    (he : exec i s = .next t) : t.Inv := by
  have hwf := exec_fb_wf hi h.fbWf he
  obtain ⟨_, _, htr⟩ := exec_outside he
  obtain ⟨u, r, hu, rfl⟩ := exec_next_cases he
  refine State.Inv.of_operation (s := u) ?_ rfl (htr.trans hr)
  cases hu with
  | kept => exact h
  | statusCleared | enablesSet | originSet | sizeSet => exact h.of_operation rfl hr
  | refused => exact h.of_operation (setSticky_operation _ _) hr
  | stored off n d _ _ _ hb =>
    exact .idle hr hb (h.phase_idle hb) hwf h.gwSorted h.latchFits h.cursorRange
  | started =>
    rcases startOperation_cases s with ⟨_, e⟩ | ⟨_, _, e⟩ | ⟨hb, hv, _, e⟩ | ⟨_, hv, hne, e⟩ <;> rw [e]
    · exact h.of_operation (setSticky_operation _ _) hr
    · exact h.of_operation (setSticky_operation _ _) hr
    · exact .idle hr hb (h.phase_idle hb) h.fbWf h.gwSorted (winValid_iff.1 hv) h.cursorRange
    · exact startOperation_accepted_inv h hr hv hne

/-! ## The invariant under the engine's steps -/

/-- The luminance pass goes to the next cursor, or from the last pixel to the diffusion pass (R120). -/
theorem advance_luma_cases (hy : s.cy < s.latch.ah.toNat) :
    ((nextCursor s.latch s.cx s.cy).2 < s.latch.ah.toNat ∧ advance .luma s =
      s.moveTo s.phase (nextCursor s.latch s.cx s.cy).1 (nextCursor s.latch s.cx s.cy).2) ∨
    ((nextCursor s.latch s.cx s.cy).2 = s.latch.ah.toNat ∧ advance .luma s = s.moveTo .diffuse 0 0) := by
  have hle : (nextCursor s.latch s.cx s.cy).2 ≤ s.latch.ah.toNat := by
    unfold nextCursor
    split <;> simp only <;> omega
  rcases hle.lt_or_eq with hlt | heq
  · exact .inl ⟨hlt, by simp [advance, hlt.ne]⟩
  · exact .inr ⟨heq, by simp [advance, heq]⟩

/-- Past the last pixel the cursor is `(0, AH)` (R120). -/
theorem nextCursor_end {l : Latch} {cx cy : Nat} (hy : cy < l.ah.toNat) :
    (nextCursor l cx cy).2 < l.ah.toNat ∨
      ((nextCursor l cx cy).1 = 0 ∧ (nextCursor l cx cy).2 = l.ah.toNat) := by
  unfold nextCursor
  split
  · simp only [true_and]
    omega
  · exact .inl hy

theorem Latch.fits.width_le {l : Latch} (h : l.fits) : l.aw.toNat ≤ Config.fw :=
  le_trans (Nat.le_add_left ..) h.1

theorem Latch.fits.height_le {l : Latch} (h : l.fits) : l.ah.toNat ≤ Config.fh :=
  le_trans (Nat.le_add_left ..) h.2

/-- Once the cursor's cell is written the luminance pass may go on (R37, R120). -/
theorem State.Inv.after_luma (h : s.Inv) (hr : s.rstN = true) (hp : s.phase = .luma)
    (hcell : (cellGet (grayKey s.cy s.cx) s.gw).isSome = true) : (advance .luma s).Inv := by
  obtain ⟨hx, hy⟩ := h.lumaCursor hp
  have hw := h.latchFits.width_le
  have hh := h.latchFits.height_le
  have hbusy : s.status.busy = true := h.busyIffActive.2 (by simp [hp])
  have hcol := nextCursor_column hx s.cy
  have hwritten {j i : Nat} (hj : j < s.latch.aw.toNat)
      (hb : before (nextCursor s.latch s.cx s.cy).1 (nextCursor s.latch s.cx s.cy).2 j i) :
      (cellGet (grayKey i j) s.gw).isSome = true := by
    rcases before_nextCursor hj hb with hb | ⟨rfl, rfl⟩
    · exact h.lumaWritten hp j i hj hb
    · exact hcell
  rcases advance_luma_cases hy with ⟨hlt, e⟩ | ⟨hend, e⟩ <;> rw [e]
  · exact {
      busyIffActive := by simp [hbusy, hp]
      fbWf := h.fbWf
      gwSorted := h.gwSorted
      latchFits := h.latchFits
      cursorRange := ⟨by simp only [State.moveTo_cx]; omega, by simp only [State.moveTo_cy]; omega⟩
      lumaCursor := fun _ => ⟨hcol, hlt⟩
      diffuseCursor := by simp [hp]
      lumaWritten := fun _ j i hj hb => hwritten hj hb
      diffuseWritten := by simp [hp]
      heldInReset := by simp [hr] }
  · exact {
      busyIffActive := by simp [hbusy]
      fbWf := h.fbWf
      gwSorted := h.gwSorted
      latchFits := h.latchFits
      cursorRange := ⟨Nat.zero_le _, Nat.zero_le _⟩
      lumaCursor := by simp
      diffuseCursor := fun _ => .inl ⟨Nat.zero_lt_of_lt hx, Nat.zero_lt_of_lt hy⟩
      lumaWritten := by simp
      diffuseWritten := fun _ j i hj hi => hwritten hj (.inl (by rw [hend]; exact hi))
      heldInReset := by simp [hr] }

/-- Whatever is written into the working array, its form is kept and no cell is lost. -/
theorem State.Inv.graySet (h : s.Inv) (hr : s.rstN = true) (i j : Nat) (v : Int) :
    (s.withGw (graySet s.gw i j v)).Inv :=
  { h with
    gwSorted := graySet_sorted h.gwSorted
    lumaWritten := fun hp j i hj hb => graySet_isSome (h.lumaWritten hp j i hj hb)
    diffuseWritten := fun hp j i hj hi => graySet_isSome (h.diffuseWritten hp j i hj hi)
    heldInReset := by simp [hr] }

theorem State.Inv.after_visit (h : s.Inv) (hr : s.rstN = true) (hp : s.phase = .diffuse)
    (hy : s.cy < s.latch.ah.toNat) : (visitStep s).Inv := by
  have hx := h.visitCursor hp hy
  have hw := h.latchFits.width_le
  have hh := h.latchFits.height_le
  have hcol := nextCursor_column hx s.cy
  have hend := nextCursor_end (cx := s.cx) hy
  rw [visitStep_eq]
  exact {
    busyIffActive := h.busyIffActive
    fbWf := paint_wf h.fbWf (cursorOffset_fits h.latchFits hx hy)
    gwSorted := spread_sorted h.gwSorted
    latchFits := h.latchFits
    cursorRange := ⟨by simp only [State.moveTo_cx]; omega, by simp only [State.moveTo_cy]; omega⟩
    lumaCursor := by simp [hp]
    diffuseCursor := fun _ => by
      rcases hend with hlt | ⟨h0, hah⟩
      · exact .inl ⟨hcol, hlt⟩
      · exact .inr ⟨h0, hah, Nat.zero_lt_of_lt hx, Nat.zero_lt_of_lt hy⟩
    lumaWritten := by simp [hp]
    diffuseWritten := fun _ j i hj hi => spread_isSome (h.diffuseWritten hp j i hj hi)
    heldInReset := by simp [hr] }

theorem engineStep_keeps_inv (h : s.Inv) (he : engineStep s = .next t) : t.Inv := by
  rcases engineStep_next_cases he with ⟨_, rfl⟩ | ⟨hr, _, hp, v, _, rfl⟩ | ⟨hr, _, hp, hy, rfl⟩ |
    ⟨hr, _, _, _, rfl⟩
  · exact h
  · exact (h.graySet hr s.cy s.cx v).after_luma hr hp (graySet_isSome_same _ _ _ _)
  · exact h.after_visit hr hp hy
  · exact .idle hr rfl rfl h.fbWf h.gwSorted h.latchFits h.cursorRange

theorem keptByMoves_inv : KeptByMoves State.Inv where
  outside := fun q ts h => h.outside q ts
  answer := fun _ h hr => h.of_operation rfl hr
  transaction := exec_keeps_inv
  engine := engineStep_keeps_inv
  reset := resetBlock_inv

/-- Settles O45: each move keeps it. -/
theorem stepKeepsInv : Obligations.StepKeepsInv :=
  fun _ _ => keptByMoves_inv.step

end Sys2Proof.Machine
end

section
/-! The range of the working values (R130) and what an engine step reads (R40, R118, R247). -/

namespace Sys2Proof.Machine

variable {s t : State} {i : Instr}

/-! ## The range under the host's moves -/

/-- A transaction leaves the working values; if it starts an operation, none of them counts yet. -/
theorem exec_keeps_grayInv (hi : s.Inv) (h : s.GrayInv) (he : exec i s = .next t) : t.GrayInv := by
  obtain ⟨u, r, hu, rfl⟩ := exec_next_cases he
  refine State.GrayInv.of_operation (s := u) ?_ rfl
  cases hu with
  | kept | statusCleared | enablesSet | originSet | sizeSet => exact h.of_operation rfl
  | refused => exact h.of_operation (setSticky_operation _ _)
  | stored off n d => exact ⟨h.range, h.luma, h.diffuse⟩
  | started =>
    rcases startOperation_cases s with ⟨_, e⟩ | ⟨_, _, e⟩ | ⟨hb, _, _, e⟩ | ⟨_, _, _, e⟩ <;> rw [e]
    · exact h.of_operation (setSticky_operation _ _)
    · exact h.of_operation (setSticky_operation _ _)
    · have hidle := hi.phase_idle hb
      exact ⟨h.range, by simp [setSticky, latchWindow, hidle], by simp [setSticky, latchWindow, hidle]⟩
    · exact ⟨h.range, by simp [before], by simp⟩

/-! ## The range under the engine's steps -/

/-- A luminance is put into the cursor's cell, and the luminance pass goes on with it (R118, R130). -/
theorem State.GrayInv.after_luma (h : s.GrayInv) (hi : s.Inv) (hp : s.phase = .luma) {v : Int}
    (hv : 0 ≤ v ∧ v ≤ 25500) : (advance .luma (s.withGw (graySet s.gw s.cy s.cx v))).GrayInv := by
  obtain ⟨hx, hy⟩ := hi.lumaCursor hp
  have haw := s.latch.aw.isLt
  have hfit := ofInt_toInt (v := v) (by omega)
  have hrange : ∀ c ∈ graySet s.gw s.cy s.cx v, -12800 ≤ c.2.toInt ∧ c.2.toInt ≤ 38300 := by
    intro c hc
    rcases mem_cellSet hc with rfl | hc
    · simp only [hfit]
      omega
    · exact h.range c hc
  have hcell {j i : Nat} (hj : j < s.latch.aw.toNat)
      (hb : before (nextCursor s.latch s.cx s.cy).1 (nextCursor s.latch s.cx s.cy).2 j i) :
      0 ≤ (grayAt (graySet s.gw s.cy s.cx v) i j).toInt ∧
        (grayAt (graySet s.gw s.cy s.cx v) i j).toInt ≤ 25500 := by
    rw [grayAt_graySet _ _ (by omega) (by omega)]
    split
    · rwa [hfit]
    · next hne =>
      exact h.luma hp j i hj ((before_nextCursor hj hb).resolve_right fun hc => hne ⟨hc.2, hc.1⟩)
  rcases advance_luma_cases (s := s.withGw (graySet s.gw s.cy s.cx v)) hy with ⟨_, e⟩ | ⟨hend, e⟩ <;>
    rw [e]
  · exact ⟨hrange, fun _ j i hj hb => hcell hj hb, by simp [hp]⟩
  · refine ⟨hrange, by simp, fun _ j i hj hii => ?_⟩
    have hcell := hcell hj (.inl (lt_of_lt_of_eq hii hend.symm))
    simpa [receivedWeight_start] using hcell

/-- A share of weight `k` moves its target by at most `800*k`, and the target's bound widens by that (R130). -/
theorem visitShare_le_weight {e : Int} (he : -12800 ≤ e ∧ e ≤ 12800) (l : Latch) {cx cy j i : Nat}
    (hx : cx < l.aw.toNat) (hj : j < l.aw.toNat) :
    |visitShare cx cy e i j| ≤ 800 * (receivedWeight l.aw.toNat (nextCursor l cx cy).1
      (nextCursor l cx cy).2 j i - receivedWeight l.aw.toNat cx cy j i) := by
  have h7 := shareOf_range (k := 7) he (by decide)
  have h3 := shareOf_range (k := 3) he (by decide)
  have h5 := shareOf_range (k := 5) he (by decide)
  have h1 := shareOf_range (k := 1) he (by decide)
  rw [receivedWeight_next l hx hj, abs_le]
  unfold visitShare
  split_ifs <;> omega

theorem State.GrayInv.after_visit (h : s.GrayInv) (hi : s.Inv)
    (hp : s.phase = .diffuse) (hy : s.cy < s.latch.ah.toNat) : (visitStep s).GrayInv := by
  have hx := hi.visitCursor hp hy
  have he := quantError_range (h.window_range hp hx hy)
  have hlatch : (visitStep s).latch = s.latch := by rw [visitStep_eq]; rfl
  have hphase : (visitStep s).phase = .diffuse := by rw [visitStep_eq]; exact hp
  have hgw : (visitStep s).gw =
      spread s.latch s.cx s.cy (quantError (grayAt s.gw s.cy s.cx).toInt) s.gw := by
    rw [visitStep_eq]
    rfl
  have hcursor : (visitStep s).cx = (nextCursor s.latch s.cx s.cy).1 ∧
      (visitStep s).cy = (nextCursor s.latch s.cx s.cy).2 := by
    rw [visitStep_eq]
    exact ⟨rfl, rfl⟩
  have hcell : ∀ j i, j < s.latch.aw.toNat → i < s.latch.ah.toNat →
      -(800 * receivedWeight s.latch.aw.toNat (visitStep s).cx (visitStep s).cy j i) ≤
          (grayAt (visitStep s).gw i j).toInt ∧
        (grayAt (visitStep s).gw i j).toInt ≤
          25500 + 800 * receivedWeight s.latch.aw.toNat (visitStep s).cx (visitStep s).cy j i := by
    intro j i hj hii
    have hold := h.diffuse hp j i hj hii
    have hshare := abs_le.1 (visitShare_le_weight (cy := s.cy) (i := i) he s.latch hx hj)
    rw [visitStep_grayAt hi h hp hy hj hii, hcursor.1, hcursor.2]
    omega
  refine ⟨fun c hc => ?_, by simp [hphase], by rw [hlatch]; exact fun _ => hcell⟩
  rw [hgw] at hc
  rcases mem_spread hc with hold | ⟨i, j, hii, hj, hkey⟩
  · exact h.range c hold
  · have hget : cellGet (grayKey i j) (visitStep s).gw = some c.2 := by
      rw [hgw, cellGet_eq_some (spread_sorted hi.gwSorted), ← hkey]
      exact hc
    have hval : grayAt (visitStep s).gw i j = c.2 := by simp [grayAt, hget]
    have hb := hcell j i hj hii
    have hw := receivedWeight_range s.latch.aw.toNat (visitStep s).cx (visitStep s).cy j i
    rw [hval] at hb
    omega

theorem engineStep_keeps_grayInv (hi : s.Inv) (h : s.GrayInv) (he : engineStep s = .next t) :
    t.GrayInv := by
  rcases engineStep_next_cases he with ⟨_, rfl⟩ | ⟨_, _, hp, v, hv, rfl⟩ | ⟨_, _, hp, hy, rfl⟩ |
    ⟨_, _, _, _, rfl⟩
  · exact h
  · exact h.after_luma hi hp (pixelLuma_range hv)
  · exact h.after_visit hi hp hy
  · exact ⟨h.range, by simp [completeStep], by simp [completeStep]⟩

theorem keptByMoves_grayInv : KeptByMoves fun s => s.Inv ∧ s.GrayInv where
  outside := fun q ts h => ⟨h.1.outside q ts, h.2.of_operation rfl⟩
  answer := fun r h hr => ⟨keptByMoves_inv.answer r h.1 hr, h.2.of_operation rfl⟩
  transaction := fun h hr hi he => ⟨exec_keeps_inv h.1 hr hi he, exec_keeps_grayInv h.1 h.2 he⟩
  engine := fun h he => ⟨engineStep_keeps_inv h.1 he, engineStep_keeps_grayInv h.1 h.2 he⟩
  reset := fun level s => ⟨resetBlock_inv level s, resetBlock_grayInv level s⟩

/-- Settles O47: each move keeps it, together with the invariant of the block. -/
theorem stepKeepsGrayRange : Obligations.StepKeepsGrayRange :=
  fun _ _ hi hg h => (keptByMoves_grayInv.step ⟨hi, hg⟩ h).2

/-- Settles O48: the working value of the visit is in R130's range. -/
theorem visitErrorBound : Obligations.VisitErrorBound := by
  intro s hi hg hp hy e
  have he : |e| ≤ 12800 :=
    abs_le.2 (quantError_range (hg.window_range hp (hi.visitCursor hp hy) hy))
  refine ⟨he, fun k hk => ?_⟩
  have hk7 : |k| ≤ 7 := by
    simp only [List.mem_cons, List.not_mem_nil, or_false] at hk
    rcases hk with rfl | rfl | rfl | rfl <;> decide
  have hprod : |k * e| ≤ 7 * 12800 := by
    rw [abs_mul]
    exact mul_le_mul hk7 he (abs_nonneg e) (by decide)
  omega

/-! ## What an engine step reads -/

/-- `advance` moves two blocks alike that agree on phase, cursor and latch. -/
theorem advance_same_move (ph : Phase) {s' : State} (hp : s'.phase = s.phase) (hx : s'.cx = s.cx)
    (hy : s'.cy = s.cy) (hl : s'.latch = s.latch) :
    ∃ p x y, advance ph s' = s'.moveTo p x y ∧ advance ph s = s.moveTo p x y := by
  by_cases hend : ph = .luma ∧ (nextCursor s.latch s.cx s.cy).2 = s.latch.ah.toNat
  · exact ⟨.diffuse, 0, 0, if_pos (by rw [hx, hy, hl]; exact hend), if_pos hend⟩
  · refine ⟨s.phase, _, _, ?_, if_neg hend⟩
    rw [advance, hx, hy, hl, hp]
    exact if_neg hend

/-- Settles O43: each of the three steps works on the operation's own fields. -/
theorem engineReadsOnlyTheLatch : Obligations.EngineReadsOnlyTheLatch := by
  intro s o z e r q ts put
  constructor
  · intro t h
    rcases engineStep_next_cases h with ⟨hoff, rfl⟩ | ⟨hr, hb, hp, v, hv, rfl⟩ | ⟨hr, hb, hp, hy, rfl⟩ |
      ⟨hr, hb, hp, hy, rfl⟩
    · exact engineStep_disabled hoff
    · rw [engineStep_luma (s := put s) hr hb hp, lumaStep_some (s := put s) hv]
      obtain ⟨p, x, y, hput, hmove⟩ := advance_same_move .luma
        (s := s.withGw (graySet s.gw s.cy s.cx v))
        (s' := (put s).withGw (graySet (put s).gw (put s).cy (put s).cx v)) rfl rfl rfl rfl
      rw [hput, hmove]
      rfl
    · rw [engineStep_visit (s := put s) hr hb hp hy, visitStep_eq, visitStep_eq]
      rfl
    · exact engineStep_complete (s := put s) hr hb hp hy
  · intro f h
    obtain ⟨hr, hb, hp, hv, rfl⟩ := engineStep_fault_cases h
    rw [engineStep_luma (s := put s) hr hb hp]
    exact lumaStep_none (s := put s) hv

/-- Settles O40: a luminance is none exactly where one of the three bytes is. -/
theorem unwrittenLumaReadFaults : Obligations.UnwrittenLumaReadFaults := by
  intro s hr hb hp
  rw [engineStep_luma hr hb hp]
  change _ ↔ ∃ k < 3, readByte s.fb (cursorOffset s + k) = none
  rw [← pixelLuma_eq_none]
  cases hv : pixelLuma s.fb (cursorOffset s) with
  | none => simp [lumaStep_none hv]
  | some v => simp [lumaStep_some hv]

/-! ## An operation among the host's moves (R69, R71, R122) -/

/-- What engine turns may change: the operation's state and, at its end, BUSY and DONE. -/
structure EngineFrame (s t : State) : Prop where
  eq : t = { s with
    fb := t.fb, gw := t.gw, phase := t.phase, cx := t.cx, cy := t.cy, status := t.status }
  status : t.status = s.status ∨ t.status = { s.status with busy := false, done := true }

theorem engineStep_frame (h : engineStep s = .next t) : EngineFrame s t := by
  rcases engineStep_next_cases h with ⟨_, rfl⟩ | ⟨_, _, _, v, _, rfl⟩ | ⟨_, _, _, _, rfl⟩ |
    ⟨_, _, _, _, rfl⟩
  · exact ⟨rfl, .inl rfl⟩
  · obtain ⟨p, x, y, e⟩ := advance_eq .luma (s.withGw (graySet s.gw s.cy s.cx v))
    rw [e]
    exact ⟨rfl, .inl rfl⟩
  · rw [visitStep_eq]
    exact ⟨rfl, .inl rfl⟩
  · exact ⟨rfl, .inr rfl⟩

theorem engineStep_rstN (h : engineStep s = .next t) : t.rstN = s.rstN := by
  rw [(engineStep_frame h).eq]

theorem engineStep_turns (h : engineStep s = .next t) : t.turns = s.turns := by
  rw [(engineStep_frame h).eq]

theorem engineStep_latch (h : engineStep s = .next t) : t.latch = s.latch := by
  rw [(engineStep_frame h).eq]

/-- An engine step depends on the operation's state alone, and so does the operation's state after it. -/
theorem engineStep_of_operation_eq {s' : State} (ho : s'.operation = s.operation)
    (hr' : s'.rstN = s.rstN) (h : engineStep s = .next t) :
    ∃ t', engineStep s' = .next t' ∧ t'.operation = t.operation := by
  obtain ⟨hfb, hgw, hphase, hcx, hcy, hlatch, hbusy⟩ := operation_eq_iff.1 ho
  have hoffset : cursorOffset s' = cursorOffset s := by simp only [cursorOffset, hlatch, hcx, hcy]
  rcases engineStep_next_cases h with ⟨hoff, rfl⟩ | ⟨hr, hb, hp, v, hv, rfl⟩ | ⟨hr, hb, hp, hy, rfl⟩ |
    ⟨hr, hb, hp, hy, rfl⟩
  · have hoff' : engineEnabled s' = false := by
      simpa only [engineEnabled, hr', hbusy, hphase, hcy, hlatch] using hoff
    exact ⟨s', engineStep_disabled hoff', ho⟩
  · rw [← hr'] at hr
    rw [← hbusy] at hb
    rw [← hphase] at hp
    rw [← hfb, ← hoffset] at hv
    refine ⟨_, (engineStep_luma hr hb hp).trans (lumaStep_some hv), ?_⟩
    obtain ⟨p, x, y, hmove', hmove⟩ := advance_same_move .luma
      (s := s.withGw (graySet s.gw s.cy s.cx v)) (s' := s'.withGw (graySet s'.gw s'.cy s'.cx v))
      hphase hcx hcy hlatch
    rw [hmove', hmove]
    simp [State.operation, hfb, hgw, hcx, hcy, hlatch, hbusy]
  · refine ⟨visitStep s', engineStep_visit (hr'.trans hr) (hbusy.trans hb) (hphase.trans hp)
      (by rwa [hcy, hlatch]), ?_⟩
    simp [visitStep_eq, State.operation, hfb, hgw, hphase, hcx, hcy, hlatch, hbusy, hoffset]
  · refine ⟨completeStep s', engineStep_complete (hr'.trans hr) (hbusy.trans hb) (hphase.trans hp)
      (by rwa [hcy, hlatch]), ?_⟩
    simp [completeStep, State.operation, hfb, hgw, hcx, hcy, hlatch]

theorem engineRun_of_operation_eq {n : Nat} {s' : State} (ho : s'.operation = s.operation)
    (hr : s'.rstN = s.rstN) (h : engineRun n s = .next t) :
    ∃ t', engineRun n s' = .next t' ∧ t'.operation = t.operation := by
  induction n generalizing s s' with
  | zero =>
    cases h
    exact ⟨s', rfl, ho⟩
  | succ n ih =>
    cases he : engineStep s with
    | next u =>
      obtain ⟨u', he', hu⟩ := engineStep_of_operation_eq ho hr he
      have hru : u'.rstN = u.rstN := by rw [engineStep_rstN he', engineStep_rstN he, hr]
      rw [engineRun_next he] at h
      rw [engineRun_next he']
      exact ih hu hru h
    | fault f =>
      rw [engineRun_fault he] at h
      cases h
    | refused r => exact absurd he engineStep_not_refused

theorem takeTurn_turns (s : State) : (takeTurn s).2.turns = s.turns.tail := by
  cases hts : s.turns with
  | nil => rw [takeTurn_nil hts, hts]; rfl
  | cons turn ts => rw [takeTurn_cons hts]; rfl

theorem mem_turns_of_assertReset (h : (takeTurn s).1 = .assertReset) : .assertReset ∈ s.turns := by
  cases hts : s.turns with
  | nil =>
    rw [takeTurn_nil hts] at h
    cases he : engineEnabled s <;> simp [defaultTurn, he] at h
  | cons turn ts =>
    rw [takeTurn_cons hts] at h
    simp [← h]

/-- What the host's turn finds: nothing, or the transaction it takes off the queue. -/
theorem present_cases (s : State) : present s = .nothing ∨ ∃ q,
    (∃ e, present s = .illegal e { s with hostQueue := q }) ∨
      ∃ i, present s = .row i { s with hostQueue := q } := by
  by_cases hr : s.rstN = true
  · cases hq : s.hostQueue with
    | nil => exact .inl (present_empty hq)
    | cons t q =>
      cases hd : decode t with
      | error e => exact .inr ⟨q, .inl ⟨e, present_illegal hr hq hd⟩⟩
      | ok i => exact .inr ⟨q, .inr ⟨i, present_row hr hq hd⟩⟩
  · exact .inl (present_inReset (Bool.eq_false_iff.2 hr))

/-- A step uses up the turn it takes, and adds none. -/
theorem step_turns (h : step s = .next t) : t.turns = s.turns.tail := by
  rw [← takeTurn_turns]
  rcases ht : takeTurn s with ⟨turn, s'⟩
  cases turn with
  | host =>
    simp only [step, ht] at h
    rcases present_cases s' with hp | ⟨q, ⟨e, hp⟩ | ⟨i, hp⟩⟩ <;> simp only [hp] at h
    · cases h
      rfl
    · cases h
      rfl
    · exact (exec_outside h).2.1
  | engine =>
    rw [step_engine ht] at h
    exact engineStep_turns h
  | assertReset =>
    rw [step_assertReset ht] at h
    cases h
    rfl
  | releaseReset =>
    rw [step_releaseReset ht] at h
    cases h
    rcases releaseReset_cases s' with ⟨_, e⟩ | ⟨_, e⟩
    · rw [e]
    · rw [e]
      rfl

/-- While BUSY, out of reset, a step that is no move of the reset pin keeps the operation or takes it one
engine step on. -/
theorem step_while_busy (hr : s.rstN = true) (hb : s.status.busy = true)
    (hts : Turn.assertReset ∉ s.turns) (h : step s = .next t) : t.rstN = true ∧
      (t.operation = s.operation ∨ ∃ u, engineStep s = .next u ∧ u.operation = t.operation) := by
  rcases step_next_cases h with ⟨q, ts, i, _, _, _, hexec⟩ | ⟨q, ts, _, _, rfl⟩ | ⟨ts, _, _, rfl⟩ |
    ⟨ts, _, hengine⟩ | ⟨ts, hturn, _⟩ | ⟨ts, _, rfl⟩
  · exact ⟨(exec_outside hexec).2.2.trans hr,
      .inl (noTransactionTouchesARunningOperation i { s with hostQueue := q, turns := ts } t hb hexec)⟩
  · exact ⟨hr, .inl rfl⟩
  · exact ⟨hr, .inl rfl⟩
  · exact ⟨(engineStep_rstN hengine).trans hr,
      .inr (engineStep_of_operation_eq (s := { s with turns := ts }) rfl rfl hengine)⟩
  · exact absurd (mem_turns_of_assertReset hturn) hts
  · rcases releaseReset_cases { s with turns := ts } with ⟨_, e⟩ | ⟨hlow, _⟩
    · rw [e]
      exact ⟨hr, .inl rfl⟩
    · exact absurd (hr.symm.trans hlow) (by decide)

theorem core_run_refused {n : Nat} {r : Refusal} (h : step s = .refused r) :
    Sys2Proof.core.run (n + 1) s = .refused r := by
  have h' : Sys2Proof.core.step s = .refused r := h
  simp [Host.Core.run, h']

/-- By induction on the steps, each of which counts as an engine turn or as none. -/
theorem core_run_while_busy {n : Nat} (hr : s.rstN = true) (hts : Turn.assertReset ∉ s.turns)
    (hbusy : ∀ k < n, ∀ u, Sys2Proof.core.run k s = .next u → u.status.busy = true)
    (hrun : Sys2Proof.core.run n s = .next t) :
    ∃ k u, k ≤ n ∧ engineRun k s = .next u ∧ u.operation = t.operation := by
  induction n generalizing s with
  | zero =>
    cases hrun
    exact ⟨0, t, le_rfl, rfl, rfl⟩
  | succ n ih =>
    have hb : s.status.busy = true := hbusy 0 (Nat.succ_pos n) s rfl
    cases hs : step s with
    | next v =>
      rw [core_run_next hs] at hrun
      obtain ⟨hrv, hop⟩ := step_while_busy hr hb hts hs
      have htsv : Turn.assertReset ∉ v.turns := by
        rw [step_turns hs]
        exact fun hm => hts (List.mem_of_mem_tail hm)
      have hbusyv : ∀ k < n, ∀ u, Sys2Proof.core.run k v = .next u → u.status.busy = true :=
        fun k hk u hu => hbusy (k + 1) (Nat.succ_lt_succ hk) u ((core_run_next hs).trans hu)
      obtain ⟨k, u, hk, hu, huop⟩ := ih hrv htsv hbusyv hrun
      rcases hop with hop | ⟨w, hw, hwop⟩
      · obtain ⟨u', hu', hop'⟩ := engineRun_of_operation_eq hop.symm (hr.trans hrv.symm) hu
        exact ⟨k, u', Nat.le_succ_of_le hk, hu', hop'.trans huop⟩
      · have hrw : w.rstN = v.rstN := (engineStep_rstN hw).trans (hr.trans hrv.symm)
        obtain ⟨u', hu', hop'⟩ := engineRun_of_operation_eq hwop hrw hu
        exact ⟨k + 1, u', Nat.succ_le_succ hk, (engineRun_next hw).trans hu', hop'.trans huop⟩
    | fault f =>
      rw [core_run_fault hs] at hrun
      cases hrun
    | refused r =>
      rw [core_run_refused hs] at hrun
      cases hrun

/-- Settles O58: the invariant is not needed, since engine steps are compared by the operation's state. -/
theorem hostCannotDisturbAnOperation : Obligations.HostCannotDisturbAnOperation :=
  fun _ _ _ _ hr hts hbusy hrun => core_run_while_busy hr hts hbusy hrun

end Sys2Proof.Machine
end

section
/-! The reference function (R129): the luminance loop cell by cell, the working values and the bytes that a
turn of the diffusion loop leaves, and what follows for the whole window (R116, R117, R126, R132, R249). -/

namespace Sys2Proof.Machine

variable {m m' : Memory} {l : Latch} {g : RefGray} {cs : List (Nat × Nat)} {j i : Nat}

/-! ## Window cells and their pixels -/

theorem mem_windowCells {w h : Nat} {c : Nat × Nat} : c ∈ windowCells w h ↔ c.1 < w ∧ c.2 < h := by
  obtain ⟨j, i⟩ := c
  simp only [windowCells, List.mem_flatMap, List.mem_map, List.mem_range, Prod.mk.injEq]
  constructor
  · rintro ⟨_, hi, _, hj, rfl, rfl⟩
    exact ⟨hj, hi⟩
  · rintro ⟨hj, hi⟩
    exact ⟨i, hi, j, hj, rfl, rfl⟩

theorem windowOffset_eq (l : Latch) (j i : Nat) :
    windowOffset l j i = 4 * ((l.ay0.toNat + i) * 128 + (l.ax0.toNat + j)) := rfl

/-- Two pixels of a window that fits share no offset (R61, R127). -/
theorem windowOffset_inj (hf : l.fits) {j' i' : Nat} (hj : j < l.aw.toNat) (hj' : j' < l.aw.toNat)
    (h : windowOffset l j i = windowOffset l j' i') : j = j' ∧ i = i' := by
  have hw : l.ax0.toNat + l.aw.toNat ≤ 128 := hf.1
  rw [windowOffset_eq, windowOffset_eq] at h
  omega

/-! ## The luminance loop -/

theorem refGray_cellSet (g : RefGray) (v : Int) {j' i' : Nat} (hj : j < 256) (hj' : j' < 256) :
    refGray (cellSet (grayKey i j) v g) i' j' = if i' = i ∧ j' = j then v else refGray g i' j' := by
  simp only [refGray, cellGet_cellSet, grayKey_inj hj' hj]
  split <;> rfl

theorem refLuma_eq_some {g' : RefGray} {c : Nat × Nat} : refLuma m l g c = some g' ↔
    ∃ v, pixelLuma m (windowOffset l c.1 c.2) = some v ∧ cellSet (grayKey c.2 c.1) v g = g' := by
  simp [refLuma]

/-- The loop leaves the luminance of each cell it goes through. -/
theorem refGray_of_lumaLoop (hcs : ∀ c ∈ cs, c.1 < 256)
    (h : cs.foldlM (refLuma m l) [] = some g) {c : Nat × Nat} (hc : c ∈ cs) :
    pixelLuma m (windowOffset l c.1 c.2) = some (refGray g c.2 c.1) := by
  induction cs using List.reverseRecOn generalizing g with
  | nil => simp at hc
  | append_singleton cs d ih =>
    have hd := hcs d (by simp)
    rw [List.foldlM_append] at h
    obtain ⟨g', hg', hlast⟩ := Option.bind_eq_some_iff.1 h
    obtain ⟨v, hv, rfl⟩ := refLuma_eq_some.1 (by simpa using hlast)
    rw [refGray_cellSet _ _ hd (hcs c hc)]
    split
    · next hcd =>
      obtain rfl : c = d := Prod.ext hcd.2 hcd.1
      exact hv
    · next hcd =>
      have hmem : c ∈ cs := by
        rcases List.mem_append.1 hc with hc | hc
        · exact hc
        · obtain rfl : c = d := by simpa using hc
          exact absurd ⟨rfl, rfl⟩ hcd
      exact ih (fun e he => hcs e (by simp [he])) hg' hmem

theorem lumaLoop_isSome (h : ∀ c ∈ cs, (pixelLuma m (windowOffset l c.1 c.2)).isSome = true) :
    ∃ g', cs.foldlM (refLuma m l) g = some g' := by
  induction cs generalizing g with
  | nil => exact ⟨g, rfl⟩
  | cons c cs ih =>
    obtain ⟨v, hv⟩ := Option.isSome_iff_exists.1 (h c (by simp))
    rw [List.foldlM_cons, refLuma_eq_some.2 ⟨v, hv, rfl⟩]
    exact ih fun d hd => h d (by simp [hd])

theorem refLumaPass_refGray (h : refLumaPass m l = some g) (hj : j < l.aw.toNat) (hi : i < l.ah.toNat) :
    pixelLuma m (windowOffset l j i) = some (refGray g i j) := by
  have haw := l.aw.isLt
  exact refGray_of_lumaLoop (c := (j, i)) (fun c hc => by have := (mem_windowCells.1 hc).1; omega) h
    (mem_windowCells.2 ⟨hj, hi⟩)

theorem refLumaPass_isSome (h : ∀ j i, j < l.aw.toNat → i < l.ah.toNat →
    (pixelLuma m (windowOffset l j i)).isSome = true) : ∃ g, refLumaPass m l = some g :=
  lumaLoop_isSome fun c hc => h c.1 c.2 (mem_windowCells.1 hc).1 (mem_windowCells.1 hc).2

theorem ditherRef_eq_some : ditherRef m l = some m' ↔
    ∃ g, refLumaPass m l = some g ∧ (refDiffusePass l m g).1 = m' := by
  simp [ditherRef]

/-! ## One turn of the diffusion loop -/

theorem refGray_refShare (l : Latch) (j i e : Int) (g : RefGray) {dj di k : Int} {i' j' : Nat}
    (hii : 0 ≤ i + di) (hj' : j' < l.aw.toNat) (hi' : i' < l.ah.toNat) :
    refGray (refShare l j i e g (dj, di, k)) i' j' = refGray g i' j' +
      if (i' : Int) = i + di ∧ (j' : Int) = j + dj then shareOf k e else 0 := by
  have haw := l.aw.isLt
  unfold refShare
  simp only
  by_cases hin : 0 ≤ j + dj ∧ j + dj < l.aw.toNat ∧ i + di < l.ah.toNat
  · rw [if_pos hin, refGray_cellSet _ _ (by omega) (by omega)]
    by_cases hhit : (i' : Int) = i + di ∧ (j' : Int) = j + dj
    · rw [if_pos hhit, if_pos (by omega), ← hhit.1, ← hhit.2]
      rfl
    · rw [if_neg hhit, if_neg (by omega), add_zero]
  · rw [if_neg hin, if_neg (by omega), add_zero]

/-- A turn of the loop adds to each window cell what a visit does (R113, R129). -/
theorem refGray_refVisit (l : Latch) (a : Memory × RefGray) (c : Nat × Nat) (hj : j < l.aw.toNat)
    (hi : i < l.ah.toNat) : refGray (refVisit l a c).2 i j =
      refGray a.2 i j + visitShare c.1 c.2 (quantError (refGray a.2 c.2 c.1)) i j := by
  simp only [refVisit, refKernel, List.foldl]
  rw [refGray_refShare l _ _ _ _ (by omega) hj hi, refGray_refShare l _ _ _ _ (by omega) hj hi,
    refGray_refShare l _ _ _ _ (by omega) hj hi, refGray_refShare l _ _ _ _ (by omega) hj hi]
  simp only [Config.kE, Config.kSW, Config.kS, Config.kSE, visitShare]
  split_ifs <;> omega

/-! ## The bytes written (R116, R117, R126) -/

/-- The diffusion loop paints colour bytes of its cells' pixels and nothing else. -/
theorem readByte_diffuseLoop_outside {a : Nat} {b : Memory × RefGray}
    (h : ∀ c ∈ cs, ¬(windowOffset l c.1 c.2 ≤ a ∧ a < windowOffset l c.1 c.2 + 3)) :
    readByte (cs.foldl (refVisit l) b).1 a = readByte b.1 a := by
  induction cs generalizing b with
  | nil => rfl
  | cons c cs ih =>
    rw [List.foldl_cons, ih fun d hd => h d (by simp [hd])]
    exact (readByte_paint _ _ _ _).trans (if_neg (h c (by simp)))

/-- Each cell that the loop went through is black or white, since a later turn paints its pixel whole or not
at all. -/
theorem diffuseLoop_binary {b : Memory × RefGray} {c : Nat × Nat} (hc : c ∈ cs) :
    ∃ v : Byte, (v = 0 ∨ v = 255) ∧
      ∀ k < 3, readByte (cs.foldl (refVisit l) b).1 (windowOffset l c.1 c.2 + k) = some v := by
  induction cs using List.reverseRecOn with
  | nil => simp at hc
  | append_singleton cs d ih =>
    rw [List.foldl_concat]
    set a := cs.foldl (refVisit l) b
    have hread (x : Nat) : readByte (refVisit l a d).1 x =
        if windowOffset l d.1 d.2 ≤ x ∧ x < windowOffset l d.1 d.2 + 3 then
          some (level (refGray a.2 d.2 d.1)) else readByte a.1 x := readByte_paint _ _ _ _
    by_cases hoff : windowOffset l c.1 c.2 = windowOffset l d.1 d.2
    · refine ⟨level (refGray a.2 d.2 d.1), ?_, fun k hk => ?_⟩
      · rw [level_eq_ite]
        split
        · exact .inl rfl
        · exact .inr rfl
      · rw [hread, if_pos (by omega)]
    · have hmem : c ∈ cs := by
        rcases List.mem_append.1 hc with hc | hc
        · exact hc
        · exact absurd (by rw [List.mem_singleton.1 hc]) hoff
      obtain ⟨v, hv, hbytes⟩ := ih hmem
      refine ⟨v, hv, fun k hk => ?_⟩
      rw [hread, if_neg, hbytes k hk]
      rw [windowOffset_eq, windowOffset_eq] at hoff ⊢
      omega

/-- Settles O53: the loop goes through every window pixel, and through no A byte. -/
theorem ditheredWindowIsBinary : Obligations.DitheredWindowIsBinary := by
  intro m m' l _ h j i hj hi p
  obtain ⟨g, _, rfl⟩ := ditherRef_eq_some.1 h
  obtain ⟨v, hv, hbytes⟩ := diffuseLoop_binary (l := l) (b := (m, g)) (c := (j, i))
    (mem_windowCells.2 ⟨hj, hi⟩)
  refine ⟨v, hv, hbytes 0 (by decide), hbytes 1 (by decide), hbytes 2 (by decide),
    readByte_diffuseLoop_outside fun c _ => ?_⟩
  rw [windowOffset_eq]
  omega

/-- Settles O54: a byte the loop paints is a colour byte of a window cell. -/
theorem onlyWindowColoursChange : Obligations.OnlyWindowColoursChange := by
  intro m m' l h a ha
  obtain ⟨g, _, rfl⟩ := ditherRef_eq_some.1 h
  refine readByte_diffuseLoop_outside fun c hc hin => ha ?_
  obtain ⟨hj, hi⟩ := mem_windowCells.1 hc
  obtain ⟨k, hk⟩ := Nat.exists_eq_add_of_le hin.1
  exact ⟨c.1, c.2, k, hj, hi, by omega, hk⟩

/-! ## A window that is black and white already (R132) -/

theorem visitShare_zero (j i i' j' : Nat) : visitShare j i 0 i' j' = 0 := by
  have hzero (k : Int) : shareOf k 0 = 0 := by
    rw [shareOf_eq_tdiv, mul_zero, Int.zero_tdiv]
  simp only [visitShare, hzero, ite_self]

theorem paint_self {p : Nat} {v : Byte} (hs : cellsSorted m) (h : ∀ k < 3, readByte m (p + k) = some v) :
    paint m p v = m := by
  have hwrite (k : Nat) (hk : k < 3) : writeByte m (p + k) v = m := cellSet_of_cellGet hs (h k hk)
  rw [paint, show writeByte m p v = m from hwrite 0 (by decide), hwrite 1 (by decide),
    hwrite 2 (by decide)]

/-- Black and white are their own luminance, in centi-levels, and their own quantised level (R111, R112). -/
theorem binary_luminance {v : Byte} (hv : v = 0 ∨ v = 255) :
    level (luminance v v v) = v ∧ quantError (luminance v v v) = 0 := by
  rcases hv with rfl | rfl <;> decide

/-- A turn of the loop on a binary pixel whose working value is its luminance changes nothing. -/
theorem refVisit_binary (hs : cellsSorted m) {a : Memory × RefGray} {c : Nat × Nat} {v : Byte}
    (ha : a.1 = m) (hv : v = 0 ∨ v = 255)
    (hbytes : ∀ k < 3, readByte m (windowOffset l c.1 c.2 + k) = some v)
    (hgray : refGray a.2 c.2 c.1 = luminance v v v) :
    (refVisit l a c).1 = m ∧ ∀ j i, j < l.aw.toNat → i < l.ah.toNat →
      refGray (refVisit l a c).2 i j = refGray a.2 i j := by
  obtain ⟨hlevel, herr⟩ := binary_luminance hv
  constructor
  · simp only [refVisit, hgray, hlevel, ha]
    exact paint_self hs hbytes
  · intro j i hj hi
    rw [refGray_refVisit l a c hj hi, hgray, herr, visitShare_zero, add_zero]

/-- The diffusion loop has changed neither frame memory nor a working value of the window. -/
def HoldsStart (l : Latch) (m : Memory) (g : RefGray) (a : Memory × RefGray) : Prop :=
  a.1 = m ∧ ∀ j i, j < l.aw.toNat → i < l.ah.toNat → refGray a.2 i j = refGray g i j

/-- Settles O56: the frame memory and the working values stay as they are through the diffusion loop. -/
theorem binaryWindowIsFixedPoint : Obligations.BinaryWindowIsFixedPoint := by
  intro m l hwf _ hbin
  have hluma {j i : Nat} {v : Byte}
      (hv : ∀ k < 3, readByte m (windowOffset l j i + k) = some v) :
      pixelLuma m (windowOffset l j i) = some (luminance v v v) :=
    pixelLuma_some (hv 0 (by decide)) (hv 1 (by decide)) (hv 2 (by decide))
  obtain ⟨g, hg⟩ := refLumaPass_isSome (m := m) (l := l) fun j i hj hi => by
    obtain ⟨v, _, hv⟩ := hbin j i hj hi
    rw [hluma hv]
    rfl
  refine ditherRef_eq_some.2 ⟨g, hg, ?_⟩
  refine And.left (List.foldlRecOn (motive := HoldsStart l m g) _ _ ⟨rfl, fun _ _ _ _ => rfl⟩ ?_)
  intro a ⟨hmem, hgray⟩ c hc
  obtain ⟨hj, hi⟩ := mem_windowCells.1 hc
  obtain ⟨v, hv, hbytes⟩ := hbin c.1 c.2 hj hi
  have hval : refGray a.2 c.2 c.1 = luminance v v v := by
    rw [hgray c.1 c.2 hj hi]
    exact Option.some.inj ((refLumaPass_refGray hg hj hi).symm.trans (hluma hbytes))
  obtain ⟨hmem', hkept⟩ := refVisit_binary hwf.1 hmem hv hbytes hval
  exact ⟨hmem', fun j i hj hi => (hkept j i hj hi).trans (hgray j i hj hi)⟩

/-! ## The cone of dependency (R249) -/

/-- The window pixels that can reach pixel `(j, i)`: on its row or above, and not too far right. -/
def Reaches (l : Latch) (j i j' i' : Nat) : Prop :=
  j' < l.aw.toNat ∧ i' ≤ i ∧ j' ≤ j + (i - i')

/-- A visit of a pixel that cannot reach `(j, i)` gives nothing to one that can. -/
theorem visitShare_of_not_reaches {j' i' : Nat} {c : Nat × Nat} (e : Int) (hc : c.1 < l.aw.toNat)
    (hr : Reaches l j i j' i') (hn : ¬Reaches l j i c.1 c.2) : visitShare c.1 c.2 e i' j' = 0 := by
  unfold Reaches at hr hn
  unfold visitShare
  split_ifs <;> omega

/-- The two sides of the diffusion loop agree as far as pixel `(j, i)` can tell. -/
structure AgreeFor (l : Latch) (j i : Nat) (a b : Memory × RefGray) : Prop where
  gray : ∀ j' i', Reaches l j i j' i' → refGray a.2 i' j' = refGray b.2 i' j'
  bytes : ∀ k < 3, readByte a.1 (windowOffset l j i + k) = readByte b.1 (windowOffset l j i + k)

theorem AgreeFor.after_turn {a b : Memory × RefGray} (h : AgreeFor l j i a b) (hf : l.fits)
    (hj : j < l.aw.toNat) (hi : i < l.ah.toNat) {c : Nat × Nat} (hc : c.1 < l.aw.toNat) :
    AgreeFor l j i (refVisit l a c) (refVisit l b c) where
  gray := fun j' i' hr => by
    have hi' : i' < l.ah.toNat := lt_of_le_of_lt hr.2.1 hi
    rw [refGray_refVisit l a c hr.1 hi', refGray_refVisit l b c hr.1 hi', h.gray j' i' hr]
    by_cases hreach : Reaches l j i c.1 c.2
    · rw [h.gray c.1 c.2 hreach]
    · rw [visitShare_of_not_reaches _ hc hr hreach, visitShare_of_not_reaches _ hc hr hreach]
  bytes := fun k hk => by
    change readByte (paint _ _ _) _ = readByte (paint _ _ _) _
    rw [readByte_paint, readByte_paint]
    by_cases hoff : windowOffset l c.1 c.2 = windowOffset l j i
    · obtain ⟨rfl, rfl⟩ := windowOffset_inj hf hc hj hoff
      rw [h.gray c.1 c.2 ⟨hj, le_rfl, Nat.le_add_right ..⟩]
      split
      · rfl
      · exact h.bytes k hk
    · have hout : ¬(windowOffset l c.1 c.2 ≤ windowOffset l j i + k ∧
          windowOffset l j i + k < windowOffset l c.1 c.2 + 3) := by
        rw [windowOffset_eq, windowOffset_eq] at hoff ⊢
        omega
      rw [if_neg hout, if_neg hout]
      exact h.bytes k hk

theorem AgreeFor.diffuseLoop {a b : Memory × RefGray} (h : AgreeFor l j i a b) (hf : l.fits)
    (hj : j < l.aw.toNat) (hi : i < l.ah.toNat) (hcs : ∀ c ∈ cs, c.1 < l.aw.toNat) :
    AgreeFor l j i (cs.foldl (refVisit l) a) (cs.foldl (refVisit l) b) := by
  induction cs generalizing a b with
  | nil => exact h
  | cons c cs ih =>
    exact ih (h.after_turn hf hj hi (hcs c (by simp))) fun d hd => hcs d (by simp [hd])

theorem pixelLuma_congr {p : Nat} (h : ∀ k < 3, readByte m (p + k) = readByte m' (p + k)) :
    pixelLuma m p = pixelLuma m' p := by
  have h0 : readByte m p = readByte m' p := h 0 (by decide)
  simp only [pixelLuma, h0, h 1 (by decide), h 2 (by decide)]

/-- Settles O57: the luminances agree on the cone, and the diffusion loop keeps the agreement. -/
theorem dependencyReach : Obligations.DependencyReach := by
  intro m n m' n' l j i hf hj hi hcone hm hn
  obtain ⟨g, hg, rfl⟩ := ditherRef_eq_some.1 hm
  obtain ⟨g', hg', rfl⟩ := ditherRef_eq_some.1 hn
  have hstart : AgreeFor l j i (m, g) (n, g') := {
    gray := fun j' i' hr => by
      have hi' : i' < l.ah.toNat := lt_of_le_of_lt hr.2.1 hi
      have hluma := pixelLuma_congr (p := windowOffset l j' i')
        fun k hk => hcone j' i' k hr.1 hr.2.1 hr.2.2 hk
      rw [refLumaPass_refGray hg hr.1 hi', refLumaPass_refGray hg' hr.1 hi'] at hluma
      exact Option.some.inj hluma
    bytes := fun k hk => hcone j i k hj le_rfl (Nat.le_add_right ..) hk }
  exact (hstart.diffuseLoop hf hj hi fun c hc => (mem_windowCells.1 hc).1).bytes

end Sys2Proof.Machine
end

section
/-! The whole operation (R110, R120, R129): how many turns are left, the two passes turn by turn, and the
reference function as what they compute. -/

namespace Sys2Proof.Machine

variable {s t : State} {n : Nat} {l : Latch}

/-! ## Turns left (R120, ENGINE_FAIR) -/

/-- The cursor's place in row-major order. -/
def scanIndex (s : State) : Nat := s.cy * s.latch.aw.toNat + s.cx

theorem scanIndex_lt (hx : s.cx < s.latch.aw.toNat) (hy : s.cy < s.latch.ah.toNat) :
    scanIndex s < s.latch.aw.toNat * s.latch.ah.toNat := by
  have hrow : (s.cy + 1) * s.latch.aw.toNat ≤ s.latch.ah.toNat * s.latch.aw.toNat :=
    Nat.mul_le_mul_right _ hy
  rw [Nat.succ_mul] at hrow
  rw [scanIndex, Nat.mul_comm s.latch.aw.toNat]
  omega

theorem nextCursor_index {cx cy : Nat} :
    (nextCursor l cx cy).2 * l.aw.toNat + (nextCursor l cx cy).1 = cy * l.aw.toNat + cx + 1 := by
  unfold nextCursor
  split
  · next hend => simp only [Nat.succ_mul]; omega
  · rfl

/-- Under the invariant a running operation has a step enabled. -/
theorem State.Inv.engineEnabled (h : s.Inv) (hr : s.rstN = true) (hb : s.status.busy = true) :
    engineEnabled s = true := by
  refine engineEnabled_iff.2 ⟨hr, hb, ?_⟩
  cases hp : s.phase with
  | idle => exact absurd hp (h.busyIffActive.1 hb)
  | luma => exact .inl rfl
  | diffuse =>
    refine .inr ⟨rfl, ?_⟩
    rcases h.diffuseCursor hp with ⟨_, hy⟩ | ⟨_, hy, _⟩
    · exact hy.le
    · exact hy.le

/-- How a turn of a running operation moves the phase and the place of the cursor (R120, R121). -/
theorem engineStep_scan (hi : s.Inv) (hr : s.rstN = true) (hb : s.status.busy = true)
    (h : engineStep s = .next t) :
    (s.phase = .luma ∧ scanIndex s < s.latch.aw.toNat * s.latch.ah.toNat ∧
      ((t.phase = .luma ∧ scanIndex t = scanIndex s + 1 ∧
          scanIndex s + 1 < s.latch.aw.toNat * s.latch.ah.toNat) ∨
        (t.phase = .diffuse ∧ scanIndex t = 0 ∧
          scanIndex s + 1 = s.latch.aw.toNat * s.latch.ah.toNat))) ∨
    (s.phase = .diffuse ∧ scanIndex s < s.latch.aw.toNat * s.latch.ah.toNat ∧
      t.phase = .diffuse ∧ scanIndex t = scanIndex s + 1) ∨
    (s.phase = .diffuse ∧ scanIndex s = s.latch.aw.toNat * s.latch.ah.toNat ∧ t = completeStep s) := by
  have hti := engineStep_keeps_inv hi h
  have hnext := nextCursor_index (l := s.latch) (cx := s.cx) (cy := s.cy)
  rcases engineStep_next_cases h with ⟨hoff, _⟩ | ⟨_, _, hp, v, _, rfl⟩ | ⟨_, _, hp, hy, rfl⟩ |
    ⟨_, _, hp, hy, rfl⟩
  · exact absurd ((hi.engineEnabled hr hb).symm.trans hoff) (by decide)
  · obtain ⟨hx, hy⟩ := hi.lumaCursor hp
    refine .inl ⟨hp, scanIndex_lt hx hy, ?_⟩
    rcases advance_luma_cases (s := s.withGw (graySet s.gw s.cy s.cx v)) hy with ⟨_, e⟩ | ⟨hend, e⟩ <;>
      rw [e] at hti ⊢
    · obtain ⟨hx', hy'⟩ := hti.lumaCursor hp
      exact .inl ⟨hp, hnext, lt_of_eq_of_lt hnext.symm (scanIndex_lt hx' hy')⟩
    · obtain ⟨h0, hah⟩ := (nextCursor_end (cx := s.cx) hy).resolve_left (not_lt_of_ge hend.ge)
      refine .inr ⟨rfl, by simp [scanIndex], hnext.symm.trans ?_⟩
      rw [h0, hah, Nat.add_zero, Nat.mul_comm]
  · have hx := hi.visitCursor hp hy
    rw [visitStep_eq]
    exact .inr (.inl ⟨hp, scanIndex_lt hx hy, hp, hnext⟩)
  · refine .inr (.inr ⟨hp, ?_, rfl⟩)
    rcases hi.diffuseCursor hp with ⟨_, hlt⟩ | ⟨hx, _⟩
    · omega
    · rw [scanIndex, hx, hy, Nat.add_zero, Nat.mul_comm]

/-- How many engine turns the operation takes from here, if it meets no unwritten byte. -/
def turnsLeft (s : State) : Nat :=
  match s.phase with
  | .idle => 0
  | .luma => 2 * (s.latch.aw.toNat * s.latch.ah.toNat) + 1 - scanIndex s
  | .diffuse => s.latch.aw.toNat * s.latch.ah.toNat + 1 - scanIndex s

/-- Each turn of a running operation is one of those left. -/
theorem engineStep_turnsLeft (hi : s.Inv) (hr : s.rstN = true) (hb : s.status.busy = true)
    (h : engineStep s = .next t) : turnsLeft s = turnsLeft t + 1 := by
  have hl := engineStep_latch h
  rcases engineStep_scan hi hr hb h with ⟨hp, hlt, ⟨hp', hscan, _⟩ | ⟨hp', hscan, hend⟩⟩ |
    ⟨hp, hlt, hp', hscan⟩ | ⟨hp, hscan, rfl⟩
  · simp only [turnsLeft, hp, hp', hl]
    omega
  · simp only [turnsLeft, hp, hp', hl]
    omega
  · simp only [turnsLeft, hp, hp', hl]
    omega
  · simp [turnsLeft, hp, hscan, completeStep]

theorem turnsLeft_pos (hi : s.Inv) (hb : s.status.busy = true) : 0 < turnsLeft s := by
  cases hp : s.phase with
  | idle => exact absurd hp (hi.busyIffActive.1 hb)
  | luma =>
    obtain ⟨hx, hy⟩ := hi.lumaCursor hp
    have hlt := scanIndex_lt hx hy
    simp only [turnsLeft, hp]
    omega
  | diffuse =>
    simp only [turnsLeft, hp]
    rcases hi.diffuseCursor hp with ⟨hx, hy⟩ | ⟨hx, hy, _⟩
    · have hlt := scanIndex_lt hx hy
      omega
    · rw [scanIndex, hx, hy, Nat.mul_comm]
      omega

/-- No operation takes longer than that on the whole frame. -/
theorem turnsLeft_le (hf : s.latch.fits) : turnsLeft s ≤ 2 * (128 * 64) + 1 := by
  have hN : s.latch.aw.toNat * s.latch.ah.toNat ≤ 128 * 64 := Nat.mul_le_mul hf.width_le hf.height_le
  unfold turnsLeft
  split <;> omega

/-- By induction on the turns left, a running operation ends or faults within them. -/
theorem engineRun_ends {k : Nat} (hi : s.Inv) (hr : s.rstN = true) (hb : s.status.busy = true)
    (hk : turnsLeft s ≤ k) : ∃ n, n ≤ k ∧
      ((∃ t, engineRun n s = .next t ∧ t.status.busy = false ∧ t.status.done = true) ∨
        engineRun n s = .fault .unwrittenLumaRead) := by
  induction k generalizing s with
  | zero => exact absurd (turnsLeft_pos hi hb) (by omega)
  | succ k ih =>
    cases h : engineStep s with
    | next u =>
      have hleft := engineStep_turnsLeft hi hr hb h
      cases hbu : u.status.busy with
      | true =>
        obtain ⟨n, hn, hend⟩ := ih (engineStep_keeps_inv hi h) ((engineStep_rstN h).trans hr) hbu (by omega)
        refine ⟨n + 1, by omega, ?_⟩
        rwa [engineRun_next h]
      | false =>
        refine ⟨1, by omega, .inl ⟨u, engineRun_next h, hbu, ?_⟩⟩
        rcases engineStep_busy_phase h with ⟨hkept, _⟩ | ⟨hbusy, _⟩ | ⟨_, _, _, _, hdone⟩
        · simp [hb, hbu] at hkept
        · simp [hbu] at hbusy
        · exact hdone
    | fault f =>
      obtain ⟨_, _, _, _, rfl⟩ := engineStep_fault_cases h
      exact ⟨1, by omega, .inr (engineRun_fault h)⟩
    | refused r => exact absurd h engineStep_not_refused

/-- Settles O52: the turns left are at most those of the whole frame. -/
theorem operationEnds : Obligations.OperationEnds :=
  fun _ hi hr hb => engineRun_ends hi hr hb (turnsLeft_le hi.latchFits)

end Sys2Proof.Machine
end

section
/-! The engine against the reference function (R129, R130): the luminance pass turn by turn, the diffusion
pass against the first turns of the reference's loop, and the whole operation. -/

namespace Sys2Proof.Machine

variable {s t : State} {n : Nat} {l : Latch}

/-! ## Runs of engine turns -/

theorem engineRun_one (s : State) : engineRun 1 s = engineStep s := by
  rw [engineRun]
  cases h : engineStep s <;> rfl

theorem engineRun_succ_last (h : engineRun n s = .next t) : engineRun (n + 1) s = engineStep t := by
  rw [engineRun_add h, engineRun_one]

theorem engineRun_fault_add {m : Nat} {f : Fault} (h : engineRun n s = .fault f) :
    engineRun (n + m) s = .fault f := by
  induction n generalizing s with
  | zero => cases h
  | succ n ih =>
    rw [Nat.succ_add]
    cases he : engineStep s with
    | next u =>
      rw [engineRun_next he] at h
      rw [engineRun_next he]
      exact ih h
    | fault f' =>
      rw [engineRun_fault he] at h
      rw [engineRun_fault he]
      exact h
    | refused r => exact absurd he engineStep_not_refused

theorem engineRun_disabled (h : engineEnabled s = false) : engineRun n s = .next s := by
  induction n with
  | zero => rfl
  | succ n ih => rw [engineRun_next (engineStep_disabled h), ih]

/-- What every engine step keeps, any number of engine turns keeps. -/
theorem engineRun_keeps {P : State → Prop} (hP : ∀ {u v}, P u → engineStep u = .next v → P v)
    (hs : P s) (h : engineRun n s = .next t) : P t := by
  induction n generalizing s with
  | zero =>
    cases h
    exact hs
  | succ n ih =>
    cases he : engineStep s with
    | next u => exact ih (hP hs he) ((engineRun_next he).symm.trans h)
    | fault f => cases (engineRun_fault he).symm.trans h
    | refused r => exact absurd he engineStep_not_refused

theorem EngineFrame.trans {u : State} (h : EngineFrame s t) (h' : EngineFrame t u) : EngineFrame s u := by
  obtain ⟨heq, hst⟩ := h
  obtain ⟨heq', hst'⟩ := h'
  constructor
  · rw [heq] at heq'
    exact heq'
  · rcases hst' with e | e <;> rw [e]
    · exact hst
    · rcases hst with e' | e' <;> rw [e'] <;> exact .inr rfl

theorem engineRun_frame (h : engineRun n s = .next t) : EngineFrame s t :=
  engineRun_keeps (P := EngineFrame s) (fun hu he => hu.trans (engineStep_frame he)) ⟨rfl, .inl rfl⟩ h

/-! ## The cells in the order of the scan (R115) -/

/-- The window cell at place `n` of the row-major order. -/
def cellAt (w n : Nat) : Nat × Nat := (n % w, n / w)

theorem windowCells_eq {w : Nat} (hw : 0 < w) (h : Nat) :
    windowCells w h = (List.range (w * h)).map (cellAt w) := by
  induction h with
  | zero => rfl
  | succ h ih =>
    have hrow : (List.range w).map (fun j => (j, h)) =
        (List.range w).map (cellAt w ∘ (w * h + ·)) := by
      refine List.map_congr_left fun j hj => ?_
      have hlt := List.mem_range.1 hj
      simp [cellAt, Nat.mod_eq_of_lt hlt, Nat.mul_add_div hw, Nat.div_eq_of_lt hlt]
    rw [Nat.mul_succ, List.range_add, List.map_append, List.map_map, ← ih, ← hrow]
    simp [windowCells, List.range_succ]

/-- The cursor on a window column is the cell at its place. -/
theorem cursor_eq_cellAt (hx : s.cx < s.latch.aw.toNat) :
    (s.cx, s.cy) = cellAt s.latch.aw.toNat (scanIndex s) := by
  have hpos := Nat.zero_lt_of_lt hx
  rw [cellAt, scanIndex, Nat.mul_comm, Nat.mul_add_mod, Nat.mod_eq_of_lt hx, Nat.mul_add_div hpos,
    Nat.div_eq_of_lt hx, Nat.add_zero]

/-! ## The luminance pass -/

/-- The start of an operation: nothing of its window has been scanned. -/
structure AtStart (s : State) : Prop where
  inv : s.Inv
  rstN : s.rstN = true
  phase : s.phase = .luma
  cx : s.cx = 0
  cy : s.cy = 0

/-- After `n` turns of the luminance pass of the operation begun in `s`: the cells scanned hold the luminances
of their pixels. -/
structure LumaProgress (s : State) (n : Nat) (t : State) : Prop where
  inv : t.Inv
  rstN : t.rstN = true
  fb : t.fb = s.fb
  latch : t.latch = s.latch
  place : (n < s.latch.aw.toNat * s.latch.ah.toNat ∧ t.phase = .luma ∧ scanIndex t = n) ∨
    (n = s.latch.aw.toNat * s.latch.ah.toNat ∧ t.phase = .diffuse ∧ scanIndex t = 0)
  gray : ∀ j i, t.wroteGray j i →
    pixelLuma s.fb (windowOffset s.latch j i) = some (grayAt t.gw i j).toInt

theorem AtStart.lumaProgress (h : AtStart s) : LumaProgress s 0 s where
  inv := h.inv
  rstN := h.rstN
  fb := rfl
  latch := rfl
  place := by
    obtain ⟨hx, hy⟩ := h.inv.lumaCursor h.phase
    exact .inl ⟨Nat.zero_lt_of_lt (scanIndex_lt hx hy), h.phase, by simp [scanIndex, h.cx, h.cy]⟩
  gray := fun j i ⟨_, _, hb⟩ => by
    have hnone := hb h.phase
    simp [before, h.cx, h.cy] at hnone

theorem LumaProgress.next {u : State} (h : LumaProgress s n t)
    (hn : n < s.latch.aw.toNat * s.latch.ah.toNat) (he : engineStep t = .next u) :
    LumaProgress s (n + 1) u := by
  obtain ⟨_, hp, hscan⟩ := h.place.resolve_right fun hend => absurd hend.1 hn.ne
  have hb : t.status.busy = true := h.inv.busyIffActive.2 (by simp [hp])
  have hti := engineStep_keeps_inv h.inv he
  have hl := (engineStep_latch he).trans h.latch
  have hrst := (engineStep_rstN he).trans h.rstN
  have hplace := engineStep_scan h.inv h.rstN hb he
  rw [h.latch, hscan] at hplace
  rcases engineStep_next_cases he with ⟨hoff, _⟩ | ⟨_, _, _, v, hv, rfl⟩ | ⟨_, _, hd, _⟩ | ⟨_, _, hd, _⟩
  · exact absurd ((h.inv.engineEnabled h.rstN hb).symm.trans hoff) (by decide)
  · refine ⟨hti, hrst, by simp [h.fb], hl, ?_, fun j i hw => ?_⟩
    · rcases hplace with ⟨_, _, ⟨hp', hs', hlt⟩ | ⟨hp', hs', hend⟩⟩ | ⟨hd, _⟩ | ⟨hd, _⟩
      · exact .inl ⟨hlt, hp', hs'⟩
      · exact .inr ⟨hend, hp', hs'⟩
      · cases hp.symm.trans hd
      · cases hp.symm.trans hd
    · have haw := t.latch.aw.isLt
      obtain ⟨hx, _⟩ := h.inv.lumaCursor hp
      have hj : j < t.latch.aw.toNat := by simpa using hw.1
      rw [advance_gw, State.withGw_gw, grayAt_graySet _ _ (by omega) (by omega)]
      split
      · next hcur =>
        rw [ofInt_toInt (by have := pixelLuma_range hv; omega), hcur.1, hcur.2, ← h.fb, ← h.latch]
        exact hv
      · next hcur =>
        exact h.gray j i ((wroteGray_advance hw).resolve_right fun hc => hcur ⟨hc.2, hc.1⟩)
  · cases hp.symm.trans hd
  · cases hp.symm.trans hd

/-- Either every pixel so far has its colour bytes written, or the pass has met one that has not. -/
theorem engineRun_luma (h : AtStart s) (hn : n ≤ s.latch.aw.toNat * s.latch.ah.toNat) :
    (∃ t, engineRun n s = .next t ∧ LumaProgress s n t) ∨
    (engineRun n s = .fault .unwrittenLumaRead ∧ ∃ j i, j < s.latch.aw.toNat ∧ i < s.latch.ah.toNat ∧
      pixelLuma s.fb (windowOffset s.latch j i) = none) := by
  induction n with
  | zero => exact .inl ⟨s, rfl, h.lumaProgress⟩
  | succ n ih =>
    rcases ih (Nat.le_of_succ_le hn) with ⟨t, ht, hprog⟩ | ⟨hfault, hnone⟩
    · rw [engineRun_succ_last ht]
      cases he : engineStep t with
      | next u => exact .inl ⟨u, rfl, hprog.next hn he⟩
      | fault f =>
        obtain ⟨_, _, hp, hv, rfl⟩ := engineStep_fault_cases he
        obtain ⟨hx, hy⟩ := hprog.inv.lumaCursor hp
        rw [hprog.latch] at hx hy
        refine .inr ⟨rfl, t.cx, t.cy, hx, hy, ?_⟩
        rw [← hprog.fb, ← hprog.latch]
        exact hv
      | refused r => exact absurd he engineStep_not_refused
    · exact .inr ⟨engineRun_fault_add hfault, hnone⟩

/-! ## The diffusion pass -/

/-- The reference's diffusion loop after `n` turns. -/
def refVisits (l : Latch) (m : Memory) (g : RefGray) (n : Nat) : Memory × RefGray :=
  (List.range n).foldl (fun a k => refVisit l a (cellAt l.aw.toNat k)) (m, g)

theorem refVisits_succ (l : Latch) (m : Memory) (g : RefGray) (n : Nat) :
    refVisits l m g (n + 1) = refVisit l (refVisits l m g n) (cellAt l.aw.toNat n) := by
  simp [refVisits, List.range_succ]

theorem refDiffusePass_eq_refVisits (hw : 0 < l.aw.toNat) (m : Memory) (g : RefGray) :
    refDiffusePass l m g = refVisits l m g (l.aw.toNat * l.ah.toNat) := by
  rw [refDiffusePass, windowCells_eq hw, List.foldl_map, refVisits]

/-- After `n` visits: frame memory and the window's working values are the reference's after `n` turns. -/
structure DiffuseProgress (l : Latch) (m : Memory) (g : RefGray) (n : Nat) (t : State) : Prop where
  inv : t.Inv
  grayInv : t.GrayInv
  rstN : t.rstN = true
  latch : t.latch = l
  phase : t.phase = .diffuse
  place : scanIndex t = n
  fb : t.fb = (refVisits l m g n).1
  gray : ∀ j i, j < l.aw.toNat → i < l.ah.toNat →
    (grayAt t.gw i j).toInt = refGray (refVisits l m g n).2 i j

/-- Before the last place the cursor is on the window. -/
theorem State.Inv.cursor_of_place (h : s.Inv) (hp : s.phase = .diffuse)
    (hlt : scanIndex s < s.latch.aw.toNat * s.latch.ah.toNat) :
    s.cx < s.latch.aw.toNat ∧ s.cy < s.latch.ah.toNat := by
  rcases h.diffuseCursor hp with hin | ⟨hx, hy, _⟩
  · exact hin
  · rw [scanIndex, hx, hy, Nat.mul_comm] at hlt
    omega

/-- At the last place it is below the window. -/
theorem State.Inv.cursor_at_end (h : s.Inv) (hp : s.phase = .diffuse)
    (hend : scanIndex s = s.latch.aw.toNat * s.latch.ah.toNat) : s.cx = 0 ∧ s.cy = s.latch.ah.toNat := by
  rcases h.diffuseCursor hp with ⟨hx, hy⟩ | ⟨hx, hy, _⟩
  · exact absurd hend (scanIndex_lt hx hy).ne
  · exact ⟨hx, hy⟩

theorem DiffuseProgress.next {m : Memory} {g : RefGray} (h : DiffuseProgress l m g n t)
    (hn : n < l.aw.toNat * l.ah.toNat) :
    ∃ u, engineStep t = .next u ∧ DiffuseProgress l m g (n + 1) u := by
  obtain ⟨hi, hg, hr, rfl, hp, rfl, hfb, hgray⟩ := h
  obtain ⟨hx, hy⟩ := hi.cursor_of_place hp hn
  have hb : t.status.busy = true := hi.busyIffActive.2 (by simp [hp])
  have hcell := (cursor_eq_cellAt hx).symm
  have he := engineStep_visit hr hb hp hy
  refine ⟨_, he, engineStep_keeps_inv hi he, engineStep_keeps_grayInv hi hg he,
    (engineStep_rstN he).trans hr, engineStep_latch he, ?_, ?_, ?_, fun j i hj hii => ?_⟩
  · rw [visitStep_eq]
    exact hp
  · rw [visitStep_eq]
    exact nextCursor_index
  · rw [visitStep_fb, refVisits_succ, hcell, refVisit, hgray _ _ hx hy, hfb]
    rfl
  · rw [visitStep_grayAt hi hg hp hy hj hii, refVisits_succ, hcell, refGray_refVisit _ _ _ hj hii,
      hgray _ _ hx hy, hgray _ _ hj hii]

theorem engineRun_diffuse {m : Memory} {g : RefGray} (h : DiffuseProgress l m g 0 t)
    (hn : n ≤ l.aw.toNat * l.ah.toNat) :
    ∃ u, engineRun n t = .next u ∧ DiffuseProgress l m g n u := by
  induction n with
  | zero => exact ⟨t, rfl, h⟩
  | succ n ih =>
    obtain ⟨u, hu, hprog⟩ := ih (Nat.le_of_succ_le hn)
    rw [engineRun_succ_last hu]
    exact hprog.next hn

/-! ## The whole operation -/

/-- The luminance pass ends with the reference's working values on the window. -/
theorem AtStart.diffuseProgress {g : RefGray} (h : AtStart s) (hg : s.GrayInv)
    (href : refLumaPass s.fb s.latch = some g) :
    ∃ t, engineRun (s.latch.aw.toNat * s.latch.ah.toNat) s = .next t ∧
      DiffuseProgress s.latch s.fb g 0 t := by
  obtain ⟨t, ht, hprog⟩ := (engineRun_luma h le_rfl).resolve_right fun ⟨_, j, i, hj, hi, hnone⟩ => by
    cases hnone.symm.trans (refLumaPass_refGray href hj hi)
  obtain ⟨_, hp, hscan⟩ := hprog.place.resolve_left fun hlt => absurd hlt.1 (lt_irrefl _)
  obtain ⟨_, hgt⟩ := engineRun_keeps keptByMoves_grayInv.engine ⟨h.inv, hg⟩ ht
  refine ⟨t, ht, hprog.inv, hgt, hprog.rstN, hprog.latch, hp, hscan, hprog.fb, fun j i hj hi => ?_⟩
  have hwrote : t.wroteGray j i := by
    rw [← hprog.latch] at hj hi
    exact ⟨hj, hi, fun hl => by cases hl.symm.trans hp⟩
  exact Option.some.inj ((hprog.gray j i hwrote).symm.trans (refLumaPass_refGray href hj hi))

/-- The start of an operation with the working array emptied, which the operation cannot tell (R125). -/
theorem AtStart.emptied (h : AtStart s) :
    AtStart (s.withGw []) ∧ (s.withGw []).GrayInv ∧ SameOperation (s.withGw []) s := by
  have hinv : (s.withGw []).Inv := {
    h.inv with
    gwSorted := .nil
    lumaWritten := by simp [before, h.cx, h.cy]
    diffuseWritten := by simp [h.phase]
    heldInReset := by simp [h.rstN] }
  exact ⟨⟨hinv, h.rstN, h.phase, h.cx, h.cy⟩,
    ⟨by simp, by simp [before, h.cx, h.cy], by simp [h.phase]⟩,
    sameOperation_start hinv h.inv h.rstN h.rstN h.phase h.phase h.cx h.cy h.cx h.cy rfl rfl⟩

/-- After the luminance pass and `n` visits, frame memory is the reference's after `n` turns of its loop. -/
theorem engineRun_visits {g : RefGray} (h : AtStart s) (href : refLumaPass s.fb s.latch = some g)
    (hn : n ≤ s.latch.aw.toNat * s.latch.ah.toNat) :
    ∃ t, engineRun (s.latch.aw.toNat * s.latch.ah.toNat + n) s = .next t ∧ t.phase = .diffuse ∧
      scanIndex t = n ∧ t.fb = (refVisits s.latch s.fb g n).1 := by
  obtain ⟨hstart, hgray, hsame⟩ := h.emptied
  obtain ⟨v, hv, hprog0⟩ := hstart.diffuseProgress hgray href
  obtain ⟨u, hu, hprog⟩ := engineRun_diffuse hprog0 hn
  obtain ⟨t, ht, hsame'⟩ := hsame.after_engineRun ((engineRun_add hv).trans hu)
  refine ⟨t, ht, hsame'.phase.trans hprog.phase, ?_, hsame'.fb.trans hprog.fb⟩
  rw [← hprog.place, scanIndex, scanIndex, hsame'.cx, hsame'.cy, hsame'.latch]

/-- A whole operation on written colour bytes. -/
theorem engineRun_ditherRef {m : Memory} (h : AtStart s) (href : ditherRef s.fb s.latch = some m) :
    ∃ t, engineRun (2 * (s.latch.aw.toNat * s.latch.ah.toNat) + 1) s = .next t ∧
      t = { s with
        fb := m, gw := t.gw, phase := .idle, cx := 0, cy := s.latch.ah.toNat
        status := { s.status with busy := false, done := true } } := by
  obtain ⟨g, hg, rfl⟩ := ditherRef_eq_some.1 href
  obtain ⟨t, ht, hp, hscan, hfb⟩ := engineRun_visits h hg le_rfl
  have hw := Nat.zero_lt_of_lt (h.inv.lumaCursor h.phase).1
  have hti := engineRun_keeps engineStep_keeps_inv h.inv ht
  obtain ⟨hframe, hstatus⟩ := engineRun_frame ht
  have hb : t.status.busy = true := hti.busyIffActive.2 (by simp [hp])
  have hl : t.latch = s.latch := by rw [hframe]
  have hr : t.rstN = true := by rw [hframe]; exact h.rstN
  have hst : t.status = s.status := hstatus.resolve_right fun e => by simp [e] at hb
  obtain ⟨hx, hy⟩ := hti.cursor_at_end hp (by rw [hscan, hl])
  refine ⟨completeStep t, ?_, ?_⟩
  · rw [Nat.two_mul, engineRun_succ_last ht]
    exact engineStep_complete hr hb hp hy
  · refine (congrArg completeStep hframe).trans ?_
    rw [refDiffusePass_eq_refVisits hw, ← hfb, hx, hy, hst, hl]
    rfl

/-- Settles O50: where the luminance pass gets through, the two passes run together; else both stop. -/
theorem engineComputesDitherRef : Obligations.EngineComputesDitherRef := by
  intro s hi hr hp hx hy n
  have hstart : AtStart s := ⟨hi, hr, hp, hx, hy⟩
  refine ⟨fun m href => engineRun_ditherRef hstart href, fun hnone => ?_⟩
  rcases engineRun_luma hstart le_rfl with ⟨t, _, hprog⟩ | ⟨hfault, _⟩
  · obtain ⟨_, hpt, _⟩ := hprog.place.resolve_left fun hlt => absurd hlt.1 (lt_irrefl _)
    obtain ⟨g, hg⟩ := refLumaPass_isSome (m := s.fb) (l := s.latch) fun j i hj hii => by
      rw [← hprog.latch] at hj hii
      rw [hprog.gray j i ⟨hj, hii, fun hl => by cases hl.symm.trans hpt⟩]
      rfl
    cases hnone.symm.trans (ditherRef_eq_some.2 ⟨g, hg, rfl⟩)
  · have hn : n = s.latch.aw.toNat * s.latch.ah.toNat + (s.latch.aw.toNat * s.latch.ah.toNat + 1) := by omega
    rw [hn]
    exact engineRun_fault_add hfault

/-- Settles O49: the place of the cursor, turn by turn, in each of the two passes. -/
theorem passLengths : Obligations.PassLengths := by
  intro s hi hr hp hx hy href n
  have hstart : AtStart s := ⟨hi, hr, hp, hx, hy⟩
  obtain ⟨m, hm⟩ := Option.isSome_iff_exists.1 href
  obtain ⟨g, hg, _⟩ := ditherRef_eq_some.1 hm
  rcases lt_or_ge n (s.latch.aw.toNat * s.latch.ah.toNat) with hn | hn
  · obtain ⟨t, ht, hprog⟩ := (engineRun_luma hstart hn.le).resolve_right fun ⟨_, j, i, hj, hi, hnone⟩ => by
      cases hnone.symm.trans (refLumaPass_refGray hg hj hi)
    obtain ⟨_, hpt, hscan⟩ := hprog.place.resolve_right fun hend => absurd hend.1 hn.ne
    rw [scanIndex, hprog.latch] at hscan
    exact ⟨t, ht, fun _ => ⟨hpt, hscan⟩, fun hle => absurd hn (not_lt.2 hle)⟩
  obtain ⟨k, rfl⟩ := Nat.exists_eq_add_of_le hn
  rcases le_or_gt k (s.latch.aw.toNat * s.latch.ah.toNat) with hk | hk
  · obtain ⟨t, ht, hpt, hscan, _⟩ := engineRun_visits hstart hg hk
    have hl : t.latch = s.latch := by rw [(engineRun_frame ht).eq]
    rw [scanIndex, hl] at hscan
    exact ⟨t, ht, fun hlt => absurd hlt (by omega), fun _ _ => ⟨hpt, by rw [hscan]⟩⟩
  · obtain ⟨t, ht, hend⟩ := engineRun_ditherRef hstart hm
    have hoff : engineEnabled t = false := engineEnabled_idle (by rw [hend])
    obtain ⟨r, hrest⟩ := Nat.exists_eq_add_of_le (show 2 * (s.latch.aw.toNat * s.latch.ah.toNat) + 1 ≤
      s.latch.aw.toNat * s.latch.ah.toNat + k by omega)
    refine ⟨t, ?_, fun hlt => absurd hlt (by omega), fun _ hle => absurd hle (by omega)⟩
    rw [hrest, engineRun_add ht, engineRun_disabled hoff]

/-! ## From an accepted START (R156) -/

/-- With no turn laid down the block's own steps are the engine's, while one is enabled (log entry 1). -/
theorem core_run_eq_engineRun (hts : s.turns = [])
    (hon : ∀ k < n, ∀ u, engineRun k s = .next u → engineEnabled u = true) :
    Sys2Proof.core.run n s = engineRun n s := by
  induction n generalizing s with
  | zero => rfl
  | succ n ih =>
    have hstep := step_default_engine hts (hon 0 (Nat.succ_pos n) s rfl)
    cases he : engineStep s with
    | next u =>
      rw [core_run_next (hstep.trans he), engineRun_next he]
      exact ih ((engineStep_turns he).trans hts) fun k hk v hv =>
        hon (k + 1) (Nat.succ_lt_succ hk) v ((engineRun_next he).trans hv)
    | fault f => exact (core_run_fault (hstep.trans he)).trans (engineRun_fault he).symm
    | refused r => exact absurd he engineStep_not_refused

/-- Up to its last turn an operation on written colour bytes has a step enabled. -/
theorem AtStart.engineEnabled_of_run {k : Nat} {m : Memory} (h : AtStart s)
    (href : ditherRef s.fb s.latch = some m) (hk : k ≤ 2 * (s.latch.aw.toNat * s.latch.ah.toNat))
    (hrun : engineRun k s = .next t) : engineEnabled t = true := by
  have hti := engineRun_keeps engineStep_keeps_inv h.inv hrun
  have hr : t.rstN = true := by rw [(engineRun_frame hrun).eq]; exact h.rstN
  obtain ⟨u, hu, hluma, hdiffuse⟩ := passLengths s h.inv h.rstN h.phase h.cx h.cy (by rw [href]; rfl) k
  obtain rfl : t = u := Host.Outcome.next.inj (hrun.symm.trans hu)
  refine hti.engineEnabled hr (hti.busyIffActive.2 ?_)
  rcases lt_or_ge k (s.latch.aw.toNat * s.latch.ah.toNat) with hlt | hge
  · simp [(hluma hlt).1]
  · simp [(hdiffuse hge hk).1]

/-- Settles O51: the START's own step, then the engine's, as many as the operation takes. -/
theorem acceptedStartDithersTheWindow : Obligations.AcceptedStartDithersTheWindow := by
  intro s t q d m hi hr hts hq hd hstart hb hw hh hwpos hhpos href
  have hturn := takeTurn_host (.inr ⟨hts, rfl, engineEnabled_idle hb⟩)
  have hstep := step_host_row hturn hr hq hd
  have hne : winEmpty s.winSize = false := by
    rw [← Bool.not_eq_true, winEmpty_iff]
    rintro (h0 | h0) <;> simp [h0] at hwpos hhpos
  have hexec := exec_wrCtrl_start (s := { s with turns := [], hostQueue := q }) hstart
  rw [startOperation_accepted (s := { s with turns := [], hostQueue := q }) hb
    (winValid_iff.2 ⟨hw, hh⟩) hne] at hexec
  have hinv := exec_keeps_inv (hi.outside q []) hr rfl hexec
  have hat := AtStart.mk hinv hr rfl rfl rfl
  obtain ⟨u, hu, hend⟩ := engineRun_ditherRef hat href
  refine ⟨u, ?_, ?_⟩
  · rw [Nat.add_comm, core_run_next (hstep.trans hexec), core_run_eq_engineRun rfl]
    · exact hu
    · exact fun k hk v hv => hat.engineEnabled_of_run href (Nat.le_of_lt_succ hk) hv
  · rw [hend]
    exact ⟨rfl, rfl, rfl, rfl, rfl, rfl, rfl, rfl⟩

end Sys2Proof.Machine
end
